-- ==== Sys2Proof/Word.lean ====
section
/-! DEFINITION. The bit vectors the spec names (00_scope.md R8, R10), each under the name of what it holds. -/

namespace Sys2Proof

/-- The master key, `Bits64` (R8 KEY_W, R17). -/
abbrev Key := BitVec 64

/-- The PC-1 output PermutedKey56 and the recombined CombinedCD, `Bits56` (R8 PK_W, CD_W). -/
abbrev Bits56 := BitVec 56

/-- A half-block, `Bits28` (R8 HALF_W). -/
abbrev Half := BitVec 28

/-- A subkey, `Bits48` (R8 SK_W). -/
abbrev Subkey := BitVec 48

/-- A command word, `Bits8` (R8 CMD_W). -/
abbrev CmdWord := BitVec 8

/-- A bank index, `Bits4` (R56, R57). -/
abbrev BankIdx := BitVec 4

/-- The STATUS word, `Bits32` (R8 STATUS_W). -/
abbrev StatusWord := BitVec 32

end Sys2Proof
end

