-- ==== Sys2Proof/Syntax.lean ====
section
/-! DEFINITION. The five commands (30_encoding.md R58), one constructor for each row of the opcode table. -/

namespace Sys2Proof

/-- A command. Only RDSK has an operand in its word: the 4-bit bank index (R57). The key of LDKEY and GEN is not part of
the word: it is the value on KEY_IN at acceptance (R57, R62), which the meanings read from the state. -/
inductive Instr where
  /-- NOP, word 0x00 (R91). -/
  | nop
  /-- LDKEY, word 0x10 (R92). -/
  | ldkey
  /-- STEP, word 0x20 (R93). -/
  | step
  /-- GEN, word 0x30 (R94). -/
  | gen
  /-- RDSK i, words 0x40 to 0x4F (R95). -/
  | rdsk (i : BankIdx)
deriving DecidableEq, Repr

end Sys2Proof
end

