-- ==== Sys2Proof/Decode.lean ====
section
/-! DEFINITION. Decoding a command word (30_encoding.md R55 to R60), then encoding a command (R58). -/

namespace Sys2Proof

/-- OP = CMD[7:4] (R56). -/
def opField (w : CmdWord) : BitVec 4 := w.extractLsb' 4 4

/-- IDX = CMD[3:0] (R56). -/
def idxField (w : CmdWord) : BankIdx := w.extractLsb' 0 4

/-- The decoder of R59, total on all 256 words. `none` is the spec's `Reserved` (R60). -/
def decode (w : CmdWord) : Option Instr :=
  if opField w = 0x0#4 ∧ idxField w = 0x0#4 then some .nop
  else if opField w = 0x1#4 ∧ idxField w = 0x0#4 then some .ldkey
  else if opField w = 0x2#4 ∧ idxField w = 0x0#4 then some .step
  else if opField w = 0x3#4 ∧ idxField w = 0x0#4 then some .gen
  else if opField w = 0x4#4 then some (.rdsk (idxField w))
  else none

/-- A word is reserved when it decodes to no command (R60). -/
abbrev reserved (w : CmdWord) : Prop := decode w = none

/-- The word of a command: OP in the high nibble, IDX in the low one (R58). -/
def encode : Instr → CmdWord
  | .nop => 0x0#4 ++ 0x0#4
  | .ldkey => 0x1#4 ++ 0x0#4
  | .step => 0x2#4 ++ 0x0#4
  | .gen => 0x3#4 ++ 0x0#4
  | .rdsk i => 0x4#4 ++ i

/-- What the decoder reads from the bits `w` of an opcode-table row of `nbits` bits. There is one length, 8 bits (R55), so
any other length, and any number that is no 8-bit word, is no command. -/
def decodeTableWord (nbits w : Nat) : Option Instr :=
  if nbits = 8 ∧ w < 2 ^ 8 then decode (BitVec.ofNat 8 w) else none

end Sys2Proof
end

