-- ==== Sys2Proof/Machine/Datapath.lean ====
section
/-! DEFINITION. The datapath networks (40_datapath.md): pure functions of their inputs; nothing here writes state. -/

namespace Sys2Proof.Machine

/-! ## Bit Accessor -/

/-- `get_bit(v, p) = v[w-1-p]`: the bit at source position `p`, position 0 the most significant (R67, R11). Positions `p >= w`
cannot be built (U5); the model's answer there, `false`, is used by nothing (notes/assumptions/19.md). -/
def getBit {w : Nat} (v : BitVec w) (p : Nat) : Bool := v.getMsbD p

/-- `set_bit(v, p, b)`: `v` except that bit `w-1-p` is `b` (R68). A position `p >= w` changes nothing; none is ever used. -/
def setBit {w : Nat} (v : BitVec w) (p : Nat) (b : Bool) : BitVec w :=
  if p < w then
    if b then v ||| BitVec.twoPow w (w - 1 - p) else v &&& ~~~(BitVec.twoPow w (w - 1 - p))
  else v

/-- The bus of width `w` whose bit at source position `p` is `f p`: each output bit is driven by exactly one wire (R68). -/
def wires : (w : Nat) → (Nat → Bool) → BitVec w
  | 0, _ => 0#0
  | w + 1, f => (wires w f).concat (f w)

/-- A permutation network: output position `i` copies input position `table[i] - 1`, the entries being 1-based (R13). -/
def permute {w : Nat} (n : Nat) (table : List Nat) (v : BitVec w) : BitVec n :=
  wires n (fun i => getBit v (table.getD i 0 - 1))

/-! ## PC-1 -/

/-- The PC-1 table (R71), rows as the spec prints them. The spec marks the values as general knowledge
(UNVERIFIED: notes/assumptions/10.md). -/
def pc1Table : List Nat :=
  [57, 49, 41, 33, 25, 17, 9] ++
  [1, 58, 50, 42, 34, 26, 18] ++
  [10, 2, 59, 51, 43, 35, 27] ++
  [19, 11, 3, 60, 52, 44, 36] ++
  [63, 55, 47, 39, 31, 23, 15] ++
  [7, 62, 54, 46, 38, 30, 22] ++
  [14, 6, 61, 53, 45, 37, 29] ++
  [21, 13, 5, 28, 20, 12, 4]

/-- The PC-1 network PC1NET (R70). -/
def pc1Net (k : Key) : Bits56 := permute 56 pc1Table k

/-! ## Split -/

/-- SPLIT's C half, `PK56[55:28]` (R72). -/
def splitC (pk : Bits56) : Half := pk.extractLsb' 28 28

/-- SPLIT's D half, `PK56[27:0]` (R72). -/
def splitD (pk : Bits56) : Half := pk.extractLsb' 0 28

/-! ## Rotation selector and barrel shifters -/

/-- The shift schedule (R80). The spec marks the values as general knowledge (UNVERIFIED: notes/assumptions/10.md). -/
def shiftTable : List Nat := [1, 1, 2, 2, 2, 2, 2, 2, 1, 2, 2, 2, 2, 2, 2, 1]

/-- The rotation selector: `s = SHIFT[r]` (R73). -/
def shiftAmount (r : Fin 16) : Nat := shiftTable.getD r.val 0

/-- `ROTL28(x, s)` for `0 <= s <= 27` (R74). -/
def rotl28 (x : Half) (s : Nat) : Half := ((x <<< s) ||| (x >>> (28 - s))) &&& 0x0FFFFFFF#28

/-- `ROTR28(x, s)`: a law's function, no network of the engine (R87). -/
def rotr28 (x : Half) (s : Nat) : Half := rotl28 x ((28 - s) % 28)

/-- The barrel shifter pair BSHIFT: both halves by the same amount, no bit crossing (R75). -/
def bshift (c d : Half) (s : Nat) : Half × Half := (rotl28 c s, rotl28 d s)

/-! ## Recombination, PC-2, packer -/

/-- `RECOMB(C', D') = C' ‖ D'` (R76). -/
def recomb (c d : Half) : Bits56 := c ++ d

/-- The PC-2 table (R78), rows as the spec prints them. The spec marks the values as general knowledge
(UNVERIFIED: notes/assumptions/10.md). -/
def pc2Table : List Nat :=
  [14, 17, 11, 24, 1, 5] ++
  [3, 28, 15, 6, 21, 10] ++
  [23, 19, 12, 4, 26, 8] ++
  [16, 7, 27, 20, 13, 2] ++
  [41, 52, 31, 37, 47, 55] ++
  [30, 40, 51, 45, 33, 48] ++
  [44, 49, 39, 56, 34, 53] ++
  [46, 42, 50, 36, 29, 32]

/-- The PC-2 network PC2NET (R77). -/
def pc2Net (cd : Bits56) : Subkey := permute 48 pc2Table cd

/-- The subkey packer PACK: the identity on the bit vector; it fixes the byte layout, which `byteAt` reads (R79). -/
def pack (skw : Subkey) : Subkey := skw

/-- Byte `j` of a bus of `w` bits, byte 0 the most significant: `B[j] = v[w-1-8j : w-8-8j]` (R12, R42, R43, R79). -/
def byteAt {w : Nat} (v : BitVec w) (j : Nat) : BitVec 8 := v.extractLsb' (w - 8 - 8 * j) 8

/-! ## The round function -/

/-- What one round gives: the next halves and the round's subkey (R81). -/
structure RoundOut where
  c : Half
  d : Half
  subkey : Subkey
deriving DecidableEq, Repr

/-- ROUNDF (R81): rotate by SHIFT[r], recombine, PC-2, pack. The subkey uses the halves after the rotation. -/
def roundF (c d : Half) (r : Fin 16) : RoundOut :=
  let halves := bshift c d (shiftAmount r)
  { c := halves.1, d := halves.2, subkey := pack (pc2Net (recomb halves.1 halves.2)) }

end Sys2Proof.Machine
end

