-- ==== Sys2Proof/Machine/Schedule.lean ====
section
/-! DEFINITION. The key schedule function KS (40_datapath.md R83), its closed form's CUM (R84), and GEN's loop (41_commands.md
R94). KS is the reference the commands are compared with; only `genLoop` is used by a command. -/

namespace Sys2Proof.Machine

/-- The sixteen rounds in order: `r in 0..15` (R14, R83). -/
def allRounds : List (Fin 16) := [0, 1, 2, 3, 4, 5, 6, 7, 8, 9, 10, 11, 12, 13, 14, 15]

/-- The halves after the PC-1 network and the split: (C0, D0) of key `k` (R70, R72). -/
def startC (k : Key) : Half := splitC (pc1Net k)

/-- See `startC`. -/
def startD (k : Key) : Half := splitD (pc1Net k)

/-- The halves carried into round `n` of key `k`: `n` rotations after the split (R83). From round 16 on there is no
rotation: the schedule has sixteen. -/
def carried (k : Key) : Nat → Half × Half
  | 0 => (startC k, startD k)
  | n + 1 =>
    let h := carried k n
    if hn : n < 16 then bshift h.1 h.2 (shiftAmount ⟨n, hn⟩) else h

/-- `KS(K)[r]`: the subkey ROUNDF gives at round `r` from the halves carried into it (R83). -/
def ks (k : Key) (r : Fin 16) : Subkey :=
  let h := carried k r.val
  (roundF h.1 h.2 r).subkey

/-- `CUM(n) = SHIFT[0] + ... + SHIFT[n-1]` (R84). -/
def cum (n : Nat) : Nat := (shiftTable.take n).sum

/-- `ROTL28(x, CUM(n) mod 28)`: a half after `n` rounds, by the closed form (R84). -/
def rotatedBy (x : Half) (n : Nat) : Half := rotl28 x (cum n % 28)

/-- The parity mask `M(q)`: the bits of `q` on the parity positions KEY_IN[56], [48], ..., [0], in that order, and 0 on the
other 56 (R85). In source positions these are 7, 15, ..., 63 (R42). -/
def parityMask (q : BitVec 8) : Key := wires 64 (fun p => p % 8 == 7 && getBit q (p / 8))

/-- What GEN's loop carries: the halves and the bank. -/
structure GenAcc where
  c : Half
  d : Half
  sk : Vector Subkey 16
deriving DecidableEq, Repr

/-- One turn of GEN's loop (R94): ROUNDF, and its subkey into SK[r]. -/
def genRound (a : GenAcc) (r : Fin 16) : GenAcc :=
  let o := roundF a.c a.d r
  { c := o.c, d := o.d, sk := a.sk.set r.val o.subkey }

/-- GEN's loop over the rounds 0..15 (R94). -/
def genLoop (a : GenAcc) : GenAcc := allRounds.foldl genRound a

end Sys2Proof.Machine
end

