-- ==== Sys2Proof/Machine/State.lean ====
section
/-! DEFINITION. The engine's state (10_state.md), the command in progress (R126), the host's side of the ports (R41), and the
state after reset (R39, R120). -/

namespace Sys2Proof.Machine

/-- ECODE's legal values, one constructor for each code of 60_exceptions.md R106. Codes 5 to 7 are never produced (U7), so
they are no constructor (DEDUCED, safe: notes/assumptions/7.md). -/
inductive Ecode where
  /-- 0: no fault since reset. -/
  | noFault
  /-- 1 ILLEGAL_CMD: a reserved word was accepted (R107). -/
  | illegalCmd
  /-- 2 NO_KEY: STEP with KEYED = 0 (R108). -/
  | noKey
  /-- 3 ROUND_OVERRUN: STEP with KEYED = 1 and ROUND = 16 (R109). -/
  | roundOverrun
  /-- 4 SK_UNWRITTEN: RDSK i with VALID[i] = 0 (R110). -/
  | skUnwritten
deriving DecidableEq, Repr

/-- What the host drives on the input ports at one clock edge (20_memory.md R41). -/
structure Pins where
  /-- RST: reset request (R120). -/
  rst : Bool
  /-- CMD_VALID: the host offers CMD. -/
  cmdValid : Bool
  /-- CMD: the command word (R55). -/
  cmd : CmdWord
  /-- KEY_IN: the master key, looked at only when LDKEY or GEN is accepted (R47). -/
  keyIn : Key
deriving DecidableEq, Repr

/-- A command accepted and not yet completed: CMD_READY = 0 while there is one (R126). -/
structure InFlight where
  /-- The input ports as sampled at the acceptance edge (R47, R125). -/
  sampled : Pins
  /-- Clock cycles left until completion (R128). -/
  cyclesLeft : Nat
deriving DecidableEq, Repr

/-- Everything the spec gives the machine. The first eleven fields are the engine's registers (10_state.md); `inFlight` is
the command in progress; `pins`, `holding` and `host` are the environment, held as data (70_reset_and_hazards.md R132). -/
structure State where
  /-- C, the left half (R22). -/
  c : Half
  /-- D, the right half (R23). -/
  d : Half
  /-- KEYED (R24). -/
  keyed : Bool
  /-- ROUND, legal values 0 to 16 (R27). The 5-bit values 17 to 31 are never held (U9), so the type has none of them
  (DEDUCED, safe: notes/assumptions/6.md). -/
  round : Fin 17
  /-- The subkey bank SK[0..15] (R25). -/
  sk : Vector Subkey 16
  /-- VALID[15:0] (R26). -/
  valid : BitVec 16
  /-- FAULT (R29). -/
  fault : Bool
  /-- ECODE (R30). -/
  ecode : Ecode
  /-- SKO (R31). -/
  sko : Subkey
  /-- SKO_IDX (R32). -/
  skoIdx : BankIdx
  /-- SKO_VALID (R33). -/
  skoValid : Bool
  /-- The command in progress, if there is one (R126). -/
  inFlight : Option InFlight
  /-- The levels the host drives on the input ports now. -/
  pins : Pins
  /-- The command word on `pins` is offered and not accepted yet: the offer is held (R126). -/
  holding : Bool
  /-- What the host drives next, in order. When the list is empty the host drives no new command and no reset. -/
  host : List Pins
deriving DecidableEq, Repr

/-- Reasons for the machine to stop with a fault: there are none. The spec's four faults are next states: FAULT and ECODE are
written and the engine goes on accepting commands (R112, R113). The datapath raises nothing (R105). (DEDUCED, safe:
notes/assumptions/15.md.) -/
inductive Fault where
deriving DecidableEq, Repr

/-- Reasons to give an instruction no meaning. -/
inductive Refusal where
  /-- Raised by an arm of exec whose instruction has no meaning yet. Safe: nothing is claimed of it. No arm uses it. -/
  | notModelled (mnemonic : String)
deriving DecidableEq, Repr

/-- The input ports with nothing driven: no reset, no command, CMD and KEY_IN at 0. -/
def Pins.idle : Pins := { rst := false, cmdValid := false, cmd := 0#8, keyIn := 0#64 }

/-- The state after reset (R39, R120). KEYED, ROUND, VALID, FAULT, ECODE and SKO_VALID are the spec's. C, D, SK, SKO and
SKO_IDX have no value there; here they hold 0 (DESIGN CHOICE, unsafe: notes/assumptions/1.md to 3.md). The ports are idle
and the host's list is empty (DESIGN CHOICE: notes/assumptions/4.md, 5.md). -/
def State.reset : State where
  c := 0#28
  d := 0#28
  keyed := false
  round := 0
  sk := Vector.replicate 16 0#48
  valid := 0#16
  fault := false
  ecode := .noFault
  sko := 0#48
  skoIdx := 0#4
  skoValid := false
  inFlight := none
  pins := Pins.idle
  holding := false
  host := []

end Sys2Proof.Machine
end

