-- ==== Sys2Proof/Machine/Operands.lean ====
section
/-! DEFINITION. The operands of the commands (30_encoding.md R57): KEY_IN, and a bank entry named by IDX or by ROUND. -/

namespace Sys2Proof.Machine

/-- The implicit operand of LDKEY and GEN: KEY_IN as the command's acceptance sampled it (R57, R69, R47). -/
def keyOperand (s : State) : Key := s.pins.keyIn

/-- VALID[i] (R26). -/
def entryValid (s : State) (i : BankIdx) : Bool := s.valid.getLsbD i.toNat

/-- SK[i] for a 4-bit index: not scaled, not shifted (R57, R98). -/
def readEntry (s : State) (i : BankIdx) : Subkey := s.sk[i.toNat]'i.isLt

/-- `SK[r] <- p; VALID[r] <- 1` (R93). -/
def writeEntry (r : Fin 16) (p : Subkey) (s : State) : State :=
  { s with sk := s.sk.set r.val p, valid := s.valid ||| BitVec.twoPow 16 r.val }

end Sys2Proof.Machine
end

