-- ==== Sys2Proof/Machine/Ops.lean ====
section
/-! DEFINITION. The operations the commands share: fault entry (60_exceptions.md R112), reset (70_reset_and_hazards.md R120),
driving SKO (20_memory.md R47), loading the halves (41_commands.md R92, R94), and what the host drives next. -/

namespace Sys2Proof.Machine

/-- The outcome of a command of this engine. -/
abbrev Result := Host.Outcome State Fault Refusal

/-- `raise Fault(e)`: FAULT <- 1, ECODE <- e, and nothing else: every write of the command is abandoned (R112). There is no
return from it: only reset leaves the faulted state (R113). -/
def raiseFault (e : Ecode) (s : State) : State := { s with fault := true, ecode := e }

/-- `C <- c; D <- d; KEYED <- 1` (R92, R94, R24). -/
def loadHalves (c d : Half) (s : State) : State := { s with c := c, d := d, keyed := true }

/-- `SKO <- p; SKO_IDX <- i; SKO_VALID <- 1`, the three together (R47, R31 to R33). -/
def driveSko (p : Subkey) (i : BankIdx) (s : State) : State := { s with sko := p, skoIdx := i, skoValid := true }

/-- The reset event: the whole state is replaced by the reset state, and a command in progress is abandoned (R120, U13). The
port levels `p` and the rest of the host's list are the environment, which RST does not touch; an offer held then is over
(DESIGN CHOICE: notes/assumptions/14.md). -/
def resetEvent (p : Pins) (rest : List Pins) : State := { State.reset with pins := p, host := rest }

/-- Apply a function to the next state of a result. -/
def mapNext (f : State → State) : Result → Result
  | .next s => .next (f s)
  | .fault r => .fault r
  | .refused r => .refused r

end Sys2Proof.Machine
end

