-- ==== Sys2Proof/Machine/Commands.lean ====
section
/-! DEFINITION. The meanings of the five commands (41_commands.md R91 to R95). Each is the frame's `execute c` (R90): the
frame in Machine/Accept.lean has already dropped the command if FAULT = 1 and raised ILLEGAL_CMD for a reserved word. -/

namespace Sys2Proof.Machine

/-- NOP: nothing (R91). -/
def execNop (s : State) : Result := .next s

/-- LDKEY: PC-1 and split of KEY_IN into C and D; KEYED <- 1, ROUND <- 0, VALID <- 0, SKO_VALID <- 0. SK, SKO and SKO_IDX
keep their bits, which no command can read any more (R92). -/
def execLdkey (s : State) : Result :=
  let k := keyOperand s
  .next { loadHalves (startC k) (startD k) s with round := 0, valid := 0#16, skoValid := false }

/-- STEP: NO_KEY if KEYED = 0, then ROUND_OVERRUN if ROUND = 16, else one round: its halves, its subkey into SK[r] and SKO,
ROUND <- r + 1 (R93, R108, R109, R111). -/
def execStep (s : State) : Result :=
  if s.keyed = false then .next (raiseFault .noKey s)
  else if h : s.round.val < 16 then
    let r : Fin 16 := ⟨s.round.val, h⟩
    let o := roundF s.c s.d r
    .next (driveSko o.subkey (BitVec.ofNat 4 r.val) (writeEntry r o.subkey { s with c := o.c, d := o.d, round := r.succ }))
  else .next (raiseFault .roundOverrun s)

/-- GEN: the whole schedule of KEY_IN in one command; ROUND <- 16, VALID <- 0xFFFF, SKO <- SK[15] (R94). -/
def execGen (s : State) : Result :=
  let k := keyOperand s
  let a := genLoop { c := startC k, d := startD k, sk := s.sk }
  .next (driveSko a.sk[15] 15#4 { loadHalves a.c a.d s with sk := a.sk, round := 16, valid := 0xFFFF#16 })

/-- RDSK i: SK_UNWRITTEN if VALID[i] = 0, else SK[i] to SKO with SKO_IDX = i (R95, R110). -/
def execRdsk (i : BankIdx) (s : State) : Result :=
  if entryValid s i then .next (driveSko (readEntry s i) i s) else .next (raiseFault .skUnwritten s)

end Sys2Proof.Machine
end

