-- ==== Sys2Proof/Machine/Dispatch.lean ====
section
/-! DEFINITION. `exec`: one arm for each constructor of `Instr`, each one call of that command's meaning. -/

namespace Sys2Proof.Machine

def exec (i : Instr) (s : State) : Host.Outcome State Fault Refusal :=
  match i with
  | .nop => Sys2Proof.Machine.execNop s
  | .ldkey => Sys2Proof.Machine.execLdkey s
  | .step => Sys2Proof.Machine.execStep s
  | .gen => Sys2Proof.Machine.execGen s
  | .rdsk idx => Sys2Proof.Machine.execRdsk idx s

end Sys2Proof.Machine
end

