-- ==== Sys2Proof/Machine/Accept.lean ====
section
/-! DEFINITION. The frame every accepted command runs in (41_commands.md R90), and the two events of the command port: a
command at the head of the host's list, and the completion of a command in progress. -/

namespace Sys2Proof.Machine

/-- `accept` (R90): with FAULT = 1 the command is dropped (R113); a reserved word raises ILLEGAL_CMD (R107); any other word
runs its command. The word and KEY_IN are those on the state's `pins`. -/
def accept (s : State) : Result :=
  if s.fault then .next s
  else
    match decode s.pins.cmd with
    | none => .next (raiseFault .illegalCmd s)
    | some i => exec i s

/-- The host drives the next entry of its list. -/
def drive (p : Pins) (rest : List Pins) (s : State) : State := { s with pins := p, host := rest }

/-- The ports at one clock edge at which RST is not asserted.
- With nothing more in the host's list the levels stay, and so does an offer held.
- While an offer is held, an entry that offers none changes KEY_IN and leaves CMD and CMD_VALID to the offer: it is held, not
lost (R126), and the host may change KEY_IN at any edge (R133, R54).
- While an offer is held, an entry that offers another command waits: CMD shows one word (DESIGN CHOICE:
notes/assumptions/22.md).
- With no offer held the entry is on the ports, and CMD_VALID says whether it offers its word (R41). -/
def present (s : State) : State :=
  match s.host with
  | [] => s
  | p :: rest =>
    if s.holding then
      if p.cmdValid then s else drive { p with cmdValid := true, cmd := s.pins.cmd } rest s
    else { drive p rest s with holding := p.cmdValid }

/-- The offer on the ports is accepted, so it is held no longer. -/
def takeOffer (s : State) : State := { s with holding := false }

/-- The command in progress completes: it runs on the inputs sampled at its acceptance (R47, R125), whatever the ports show
now, and CMD_READY returns to 1 (R126). -/
def complete (f : InFlight) (s : State) : Result :=
  mapNext (fun t => { t with pins := s.pins }) (accept { s with pins := f.sampled, inFlight := none })

/-- A turn of the command port without RST. A command in progress completes, and an offer held stays held (R126). Otherwise the
command on offer at this edge is accepted and completes (R41, R50), with the KEY_IN of this edge (R125); an edge that offers
none changes nothing of the engine (R48, R121). -/
def exchange (s : State) : Result :=
  match s.inFlight with
  | some f => complete f s
  | none => if (present s).holding then accept (takeOffer (present s)) else .next (present s)

/-- One transaction (R50), seen from the command port: RST at the head of the host's list is a reset event, which abandons a
command in progress (R120); any other turn is an `exchange`. -/
def transact (s : State) : Result :=
  match s.host with
  | [] => exchange s
  | p :: rest => if p.rst then .next (resetEvent p rest) else exchange s

end Sys2Proof.Machine
end

