-- ==== Sys2Proof/Machine/Step.lean ====
section
/-! DEFINITION. The step of the machine: one accepted command (20_memory.md R50), or one reset event (70_reset_and_hazards.md
R120), or one turn of waiting. -/

namespace Sys2Proof.Machine

/-- One step of the model. All of it stands in Machine/Accept.lean. -/
def step (s : State) : Host.Outcome State Fault Refusal := transact s

/-- `s` with the command word `w` offered next: it is put at the head of the host's list, with the KEY_IN level the host is
driving now, no command is in progress and no offer is held, so that the very next step accepts it (notes/assumptions/4.md, 5.md). -/
def State.withFetchWord (s : State) (_nbits w : Nat) : State :=
  { s with
    inFlight := none
    holding := false
    host := { rst := false, cmdValid := true, cmd := BitVec.ofNat 8 w, keyIn := s.pins.keyIn } :: s.host }

end Sys2Proof.Machine
end

