-- ==== Sys2Proof/Assembly.lean ====
section
/-! DEFINITION. The assembler's lines (30_encoding.md R62, R63), as syntax. -/

namespace Sys2Proof

/-- One line of a test program (R62) or a pseudo-command (R63). Numbers are written as the text has them, so a line can be
ill-formed; `AsmLine.wellFormed` says which are. A `key=` operand is not part of the word: it records what the host drives
on KEY_IN at acceptance. -/
inductive AsmLine where
  | nop
  | ldkey (key : Nat)
  | step
  | gen (key : Nat)
  | rdsk (i : Nat)
  /-- `.word 0xNN`: a raw command word, reserved or not. -/
  | word (w : Nat)
  /-- `STEPN n`: n STEP words. -/
  | stepn (n : Nat)
  /-- `RDALL`: RDSK 0 to RDSK 15. -/
  | rdall
  /-- `SCHED key=K`: LDKEY, then STEPN 16. -/
  | sched (key : Nat)
deriving DecidableEq, Repr

end Sys2Proof
end

