-- ==== Sys2Proof/WellFormed.lean ====
section
/-! DEFINITION. Which source terms are well-formed.

A term of `Instr` cannot be ill-formed: its one operand is a `BankIdx`, whose 16 values are the 16 the field admits (R57:
"value 0 to 15"; 95_test_vectors.md P6: "There is no RDSK 16, because IDX has only 4 bits"). So there is no check on `Instr`,
and every statement about encodings holds for all of it. What can be ill-formed is the text a programmer writes. -/

namespace Sys2Proof

/-- A key is 16 hex digits (R62), so it is below 2^64. -/
def keyTextOk (key : Nat) : Bool := decide (key < 2 ^ 64)

/-- The checks of R62 (key of 16 hex digits, RDSK `i` decimal 0..15, `.word 0xNN` of one byte) and R63 (STEPN with
1 <= n <= 16). -/
def AsmLine.wellFormed : AsmLine → Bool
  | .nop => true
  | .ldkey key => keyTextOk key
  | .step => true
  | .gen key => keyTextOk key
  | .rdsk i => decide (i < 16)
  | .word w => decide (w < 256)
  | .stepn n => decide (1 ≤ n) && decide (n ≤ 16)
  | .rdall => true
  | .sched key => keyTextOk key

/-- A program is well-formed when each of its lines is. -/
def programWellFormed (lines : List AsmLine) : Bool := lines.all AsmLine.wellFormed

end Sys2Proof
end

