-- ==== Sys2Proof/Machine/Assembler.lean ====
section
/-! DEFINITION. What a host does to run a line of a test program (30_encoding.md R62, R63). -/

namespace Sys2Proof.Machine

/-- The host offers word `w` with `k` on KEY_IN. -/
def offer (w : CmdWord) (k : Key) : Pins := { rst := false, cmdValid := true, cmd := w, keyIn := k }

/-- The host asserts RST for one edge (R120). -/
def assertRst : Pins := { rst := true, cmdValid := false, cmd := 0#8, keyIn := 0#64 }

/-- RDSK 0 to RDSK 15 in order (R63 RDALL). -/
def allIndices : List BankIdx := [0, 1, 2, 3, 4, 5, 6, 7, 8, 9, 10, 11, 12, 13, 14, 15]

/-- The commands a line stands for (R62, R63). `other` is what is on KEY_IN where the line says nothing of it. -/
def expandLine (other : Key) : AsmLine → List Pins
  | .nop => [offer (encode .nop) other]
  | .ldkey key => [offer (encode .ldkey) (BitVec.ofNat 64 key)]
  | .step => [offer (encode .step) other]
  | .gen key => [offer (encode .gen) (BitVec.ofNat 64 key)]
  | .rdsk i => [offer (encode (.rdsk (BitVec.ofNat 4 i))) other]
  | .word w => [offer (BitVec.ofNat 8 w) other]
  | .stepn n => List.replicate n (offer (encode .step) other)
  | .rdall => allIndices.map (fun i => offer (encode (.rdsk i)) other)
  | .sched key => offer (encode .ldkey) (BitVec.ofNat 64 key) :: List.replicate 16 (offer (encode .step) other)

/-- The commands a program stands for: its lines in order (R62). -/
def assemble (other : Key) (lines : List AsmLine) : List Pins := lines.flatMap (expandLine other)

end Sys2Proof.Machine
end

