-- ==== Sys2Proof/Config.lean ====
section
/-! DEFINITION. What an implementation fixes and the spec leaves open: the latencies (00_scope.md R9, 70_reset_and_hazards.md
R128). Each is at least 1 and otherwise unknown, so each is one more than an uninterpreted constant. The table values of PC-1,
PC-2 and the shift schedule are wiring, not configuration (R35); they stand in Machine/Datapath.lean. -/

namespace Sys2Proof.Config

opaque extraNop : Nat
opaque extraLdkey : Nat
opaque extraStep : Nat
opaque extraGen : Nat
opaque extraRdsk : Nat
opaque extraReserved : Nat

/-- LAT_NOP (R9, R128). -/
def latNop : Nat := extraNop + 1

/-- LAT_LDKEY (R9, R128). -/
def latLdkey : Nat := extraLdkey + 1

/-- LAT_STEP (R9, R128). -/
def latStep : Nat := extraStep + 1

/-- LAT_GEN (R9, R128). -/
def latGen : Nat := extraGen + 1

/-- LAT_RDSK (R9, R128). -/
def latRdsk : Nat := extraRdsk + 1

/-- The cycles from acceptance of a reserved word to its fault. DESIGN CHOICE (safe): the spec names no latency for it, so it
has an uninterpreted one of its own, at least 1 like the others (notes/assumptions/8.md). -/
def latReserved : Nat := extraReserved + 1

end Sys2Proof.Config
end

