-- ==== Sys2Proof/Machine/Clock.lean ====
section
/-! DEFINITION. One clock edge of the handshake (70_reset_and_hazards.md R126, R128; 20_memory.md R41), over the same state.
`step` hides what happens between acceptance and completion (R50); `tick` shows it. -/

namespace Sys2Proof.Machine

/-- The clock cycles a command takes from acceptance to completion (R9, R128). A reserved word has a latency of its own. -/
def latencyOf : Option Instr → Nat
  | none => Config.latReserved
  | some .nop => Config.latNop
  | some .ldkey => Config.latLdkey
  | some .step => Config.latStep
  | some .gen => Config.latGen
  | some (.rdsk _) => Config.latRdsk

/-- The acceptance edge: the ports are sampled and CMD_READY falls (R47, R126). With FAULT = 1 the command is dropped at once
and CMD_READY stays 1 (R113). -/
def begin (s : State) : State :=
  if s.fault then s
  else { s with inFlight := some { sampled := s.pins, cyclesLeft := latencyOf (decode s.pins.cmd) } }

/-- An edge while a command is in progress: the last one completes it, any other only counts (R128, R52). -/
def advance (f : InFlight) (s : State) : Result :=
  if f.cyclesLeft ≤ 1 then complete f s
  else .next { s with inFlight := some { f with cyclesLeft := f.cyclesLeft - 1 } }

/-- One clock edge without RST. With CMD_READY = 0 the command in progress advances and an offer is held; with CMD_READY = 1 a
command on offer is accepted (R41). At the edge of a completion no command is accepted (DESIGN CHOICE: notes/assumptions/9.md). -/
def edge (s : State) : Result :=
  match s.inFlight with
  | some f => advance f (present s)
  | none => if (present s).holding then .next (begin (takeOffer (present s))) else .next (present s)

/-- One clock edge. RST wins over everything, at any time (R120, R133). -/
def tick (s : State) : Result :=
  match s.host with
  | [] => edge s
  | p :: rest => if p.rst then .next (resetEvent p rest) else edge s

/-- `n` clock edges, stopping at the first that gives no next state. -/
def ticks : Nat → State → Result
  | 0, s => .next s
  | n + 1, s =>
    match tick s with
    | .next t => ticks n t
    | .fault r => .fault r
    | .refused r => .refused r

end Sys2Proof.Machine
end

