-- ==== Sys2Proof/Machine/Flags.lean ====
section
/-! DEFINITION. The flags and outputs that are functions of the state (10_state.md R28, R34; 20_memory.md R41). -/

namespace Sys2Proof.Machine

/-- `DONE = KEYED and (ROUND = 16)` (R28). -/
def done (s : State) : Bool := s.keyed && decide (s.round = 16)

/-- ROUND as the 5 bits STATUS shows (R27, R34). -/
def roundBits (s : State) : BitVec 5 := BitVec.ofNat 5 s.round.val

/-- The 3-bit code of an ECODE value (R106). -/
def Ecode.code : Ecode → BitVec 3
  | .noFault => 0#3
  | .illegalCmd => 1#3
  | .noKey => 2#3
  | .roundOverrun => 3#3
  | .skUnwritten => 4#3

/-- The STATUS word, high field first (R34). -/
def status (s : State) : StatusWord :=
  s.valid ++ 0b0000#4 ++ BitVec.ofBool s.skoValid ++ s.ecode.code ++ BitVec.ofBool s.fault ++ BitVec.ofBool (done s) ++
    roundBits s ++ BitVec.ofBool s.keyed

/-- CMD_READY: 1 exactly when no command is in progress (R126, R113), and so once RST is released (R121). While RST is asserted
the spec gives it no level: the model shows 1 then too, unless a command is in progress (DESIGN CHOICE: notes/assumptions/21.md). -/
def cmdReady (s : State) : Bool := s.inFlight.isNone

/-- What SKO and SKO_IDX tell a host: a subkey and its index while SKO_VALID = 1, and nothing otherwise (R38, R127, U3). -/
def visibleSubkey (s : State) : Option (Subkey × BankIdx) := if s.skoValid then some (s.sko, s.skoIdx) else none

/-- What a host sees after a command: STATUS, and SKO with SKO_IDX where SKO_VALID says so (R132, R37). -/
structure Observation where
  status : StatusWord
  subkey : Option (Subkey × BankIdx)
deriving DecidableEq, Repr

/-- The observation of a state (R132). -/
def observe (s : State) : Observation := { status := status s, subkey := visibleSubkey s }

end Sys2Proof.Machine
end

