-- ==== Sys2Proof/Safety.lean ====
section
/-! DEFINITION. The terms claims use: the invariant (10_state.md R36), what a host cannot tell apart (R38), runs and when a
run ends well (70_reset_and_hazards.md R132). -/

namespace Sys2Proof.Machine

/-! ## The invariant -/

/-- The last three clauses of R36 that name the last loaded key `k`: C and D are its post-split halves rotated by CUM(ROUND), and
the entries below ROUND hold its subkeys. -/
structure ScheduleOf (k : Key) (s : State) : Prop where
  c_eq : s.c = rotatedBy (startC k) s.round.val
  d_eq : s.d = rotatedBy (startD k) s.round.val
  entry_eq : ∀ r : Fin 16, r.val < s.round.val → s.sk[r.val] = ks k r

/-- The invariants of R36. `0 <= ROUND <= 16` is in the type of `round`. -/
structure Inv (s : State) : Prop where
  unkeyed : s.keyed = false → s.round = 0 ∧ s.valid = 0#16
  valid_eq : s.keyed = true → s.valid = BitVec.ofNat 16 (2 ^ s.round.val - 1)
  schedule : s.keyed = true → ∃ k, ScheduleOf k s
  fault_iff : s.fault = false ↔ s.ecode = .noFault
  sko_current : s.skoValid = true → entryValid s s.skoIdx = true ∧ s.sko = readEntry s s.skoIdx

/-- CMD_READY is 1 while FAULT = 1 (R113). -/
def ReadyWhenFaulted (s : State) : Prop := s.fault = true → cmdReady s = true

/-! ## State with no value -/

/-- Two states agree when they differ at most in state that holds no value (R38): C and D while KEYED = 0, SK[i] while
VALID[i] = 0, SKO and SKO_IDX while SKO_VALID = 0. -/
structure Agree (s t : State) : Prop where
  keyed : s.keyed = t.keyed
  round : s.round = t.round
  valid : s.valid = t.valid
  fault : s.fault = t.fault
  ecode : s.ecode = t.ecode
  skoValid : s.skoValid = t.skoValid
  inFlight : s.inFlight = t.inFlight
  pins : s.pins = t.pins
  holding : s.holding = t.holding
  host : s.host = t.host
  halves : s.keyed = true → s.c = t.c ∧ s.d = t.d
  entries : ∀ i, entryValid s i = true → readEntry s i = readEntry t i
  sko : s.skoValid = true → s.sko = t.sko ∧ s.skoIdx = t.skoIdx

/-- Two states hold the same engine: they differ at most in what the host drives. -/
def SameEngine (s t : State) : Prop := { s with pins := t.pins, holding := t.holding, host := t.host } = t

/-- The command words the host has offered, or will, and that are not accepted yet, in order: the offer held, then those of its
list (R126). -/
def offersToCome (s : State) : List CmdWord :=
  (if s.holding then [s.pins.cmd] else []) ++ (s.host.filter Pins.cmdValid).map Pins.cmd

/-! ## Runs -/

/-- Commands executed one after the other on the same ports (the frame's `execute`, R90). -/
def execSeq : List Instr → State → Result
  | [], s => .next s
  | i :: rest, s =>
    match exec i s with
    | .next t => execSeq rest t
    | .fault r => .fault r
    | .refused r => .refused r

/-- `n` steps, stopping at the first that gives no next state. -/
def runSteps : Nat → State → Result
  | 0, s => .next s
  | n + 1, s =>
    match step s with
    | .next t => runSteps n t
    | .fault r => .fault r
    | .refused r => .refused r

/-- The host runs a script, with no offer held before it: one step for each entry (R132). -/
def play (script : List Pins) (s : State) : Result := runSteps script.length { s with holding := false, host := script }

/-- What a host sees after each entry of a script (R132). -/
def observations : List Pins → State → List Observation
  | [], _ => []
  | p :: rest, s =>
    match step { s with holding := false, host := [p] } with
    | .next t => observe t :: observations rest t
    | .fault _ => []
    | .refused _ => []

/-- A run is reset followed by a script; it ends well when FAULT = 0 at its end (R132). -/
def EndsWell (script : List Pins) : Prop := ∃ t, play script State.reset = .next t ∧ t.fault = false

/-- After `script` from reset, STATUS reads `w` (R104). -/
def StatusAfter (script : List Pins) (w : StatusWord) : Prop := ∃ t, play script State.reset = .next t ∧ status t = w

/-- How many of the sixteen subkeys change when the key bit at source position `p` is flipped (R86). -/
def subkeysChanged (k : Key) (p : Nat) : Nat :=
  (allRounds.filter (fun r => decide (ks (k ^^^ setBit 0#64 p true) r ≠ ks k r))).length

/-- No entry of a script asserts RST. -/
def NoReset (script : List Pins) : Prop := ∀ p ∈ script, p.rst = false

end Sys2Proof.Machine
end

