-- ==== Sys2Proof/Certificates/Slice0/Obligations.lean ====
section
/-! DEFINITION. The statements for the provers, in the order of OBLIGATIONS.json. R<n> is a numbered rule of spec/.
Throughout, `s.pins` is what the host drives on the input ports as the command is executed. -/

open Sys2Proof Sys2Proof.Machine

/-! ## Command encoding (30_encoding.md) -/

/-- R58: the five commands' words, and every other word is reserved. -/
def Obligations.CommandWordsDecodeAndAllOthersAreReserved : Prop :=
  decode 0x00#8 = some .nop ∧ decode 0x10#8 = some .ldkey ∧ decode 0x20#8 = some .step ∧ decode 0x30#8 = some .gen ∧
  (∀ i : BankIdx, decode (0x40#8 + i.setWidth 8) = some (.rdsk i)) ∧
  ∀ w : CmdWord, w ≠ 0x00#8 → w ≠ 0x10#8 → w ≠ 0x20#8 → w ≠ 0x30#8 → ¬(0x40 ≤ w.toNat ∧ w.toNat ≤ 0x4F) → decode w = none

/-- R66: a word selects a row of the opcode table when `(w AND mask) = match`; a word that matches no row is reserved. -/
def Obligations.OpcodeTableRowsSelectTheirWords : Prop :=
  ∀ w : CmdWord,
    (w &&& 0xFF#8 = 0x00#8 ↔ decode w = some .nop) ∧
    (w &&& 0xFF#8 = 0x10#8 ↔ decode w = some .ldkey) ∧
    (w &&& 0xFF#8 = 0x20#8 ↔ decode w = some .step) ∧
    (w &&& 0xFF#8 = 0x30#8 ↔ decode w = some .gen) ∧
    (w &&& 0xF0#8 = 0x40#8 ↔ decode w = some (.rdsk (w.extractLsb' 0 4))) ∧
    (w &&& 0xFF#8 ≠ 0x00#8 → w &&& 0xFF#8 ≠ 0x10#8 → w &&& 0xFF#8 ≠ 0x20#8 → w &&& 0xFF#8 ≠ 0x30#8 →
      w &&& 0xF0#8 ≠ 0x40#8 → decode w = none)

/-- Decode and encode agree on the whole instruction set: a word decodes to a command exactly when it is that command's
word, with every bank index; 20 words are commands and 236 are reserved (R58 to R60, V15). -/
def Obligations.DecodeAndEncodeAgree : Prop :=
  (∀ (w : CmdWord) (i : Instr), decode w = some i ↔ w = encode i) ∧
  ((List.range 256).filter (fun n => (decode (BitVec.ofNat 8 n)).isSome)).length = 20 ∧
  ((List.range 256).filter (fun n => (decode (BitVec.ofNat 8 n)).isNone)).length = 236

/-- R60, R107: which words are reserved, how many of each group, and what accepting one does: FAULT and ECODE, and nothing
else. -/
def Obligations.ReservedWordsRaiseIllegalCommand : Prop :=
  (∀ w : CmdWord, decode w = none ↔
    5 ≤ (w.extractLsb' 4 4).toNat ∨ ((w.extractLsb' 4 4).toNat ≤ 3 ∧ w.extractLsb' 0 4 ≠ 0#4)) ∧
  ((List.range 256).filter (fun n => decide (5 ≤ n / 16))).length = 176 ∧
  ((List.range 256).filter (fun n => decide (n / 16 ≤ 3) && decide (n % 16 ≠ 0))).length = 60 ∧
  ((List.range 256).filter (fun n => (decode (BitVec.ofNat 8 n)).isNone)).length = 236 ∧
  ((List.range 256).filter (fun n => (decode (BitVec.ofNat 8 n)).isSome)).length = 20 ∧
  ∀ s : State, s.fault = false → decode s.pins.cmd = none →
    accept s = .next { s with fault := true, ecode := .illegalCmd }

/-- R62 to R64: the lines of a well-formed program, other than `.word`, stand for legal commands only; the printed examples. -/
def Obligations.WellFormedLinesAssembleToLegalCommands : Prop :=
  (∀ (other : Key) (line : AsmLine), line.wellFormed = true → (∀ w, line ≠ .word w) →
    ∀ p ∈ expandLine other line, p.rst = false ∧ p.cmdValid = true ∧ decode p.cmd ≠ none) ∧
  ∀ other : Key,
    expandLine other .nop = [offer 0x00#8 other] ∧
    expandLine other (.ldkey 0x133457799BBCDFF1) = [offer 0x10#8 0x133457799BBCDFF1#64] ∧
    expandLine other .step = [offer 0x20#8 other] ∧
    expandLine other (.gen 0x6162636465666768) = [offer 0x30#8 0x6162636465666768#64] ∧
    expandLine other (.rdsk 0) = [offer 0x40#8 other] ∧
    expandLine other (.rdsk 15) = [offer 0x4F#8 other] ∧
    expandLine other (.word 0x21) = [offer 0x21#8 other] ∧ decode 0x21#8 = none ∧
    expandLine other (.word 0x50) = [offer 0x50#8 other] ∧ decode 0x50#8 = none ∧
    expandLine other (.word 0xFF) = [offer 0xFF#8 other] ∧ decode 0xFF#8 = none

/-! ## The datapath (40_datapath.md) -/

/-- R67, R68: reading back a written bit gives it, and every other bit is untouched. -/
def Obligations.SetBitWritesOnePositionOnly : Prop :=
  ∀ (w : Nat) (v : BitVec w) (p : Nat) (b : Bool), p < w →
    getBit v p = v.getLsbD (w - 1 - p) ∧
    (setBit v p b).getLsbD (w - 1 - p) = b ∧
    getBit (setBit v p b) p = b ∧
    ∀ q, q < w → q ≠ p → getBit (setBit v p b) q = getBit v q

/-- R71, R78, R80, R82: sizes, bounds and distinct entries of the three tables, and the positions they never name. -/
def Obligations.TablesHaveTheirStatedSizesBoundsAndGaps : Prop :=
  pc1Table.length = 56 ∧ pc1Table.Nodup ∧ (∀ v ∈ pc1Table, 1 ≤ v ∧ v ≤ 63) ∧
  (∀ v, 1 ≤ v → v ≤ 64 → (v ∉ pc1Table ↔ v % 8 = 0)) ∧
  pc2Table.length = 48 ∧ pc2Table.Nodup ∧ (∀ v ∈ pc2Table, 1 ≤ v ∧ v ≤ 56) ∧
  (∀ v, 1 ≤ v → v ≤ 56 → (v ∉ pc2Table ↔ v ∈ [9, 18, 22, 25, 35, 38, 43, 54])) ∧
  shiftTable.length = 16 ∧ (∀ s ∈ shiftTable, s = 1 ∨ s = 2) ∧ shiftTable.sum = 28

/-- R70: each PC-1 output bit copies the input bit its entry names, in source positions and LSB-0; no input bit drives
two outputs, and the parity bits drive nothing. -/
def Obligations.Pc1NetworkCopiesTheNamedKeyBits : Prop :=
  (∀ (k : Key) (i : Nat), i < 56 →
    getBit (pc1Net k) i = getBit k (pc1Table.getD i 0 - 1) ∧
    (pc1Net k).getLsbD (55 - i) = k.getLsbD (64 - pc1Table.getD i 0)) ∧
  pc1Table.length = 56 ∧ pc1Table.Nodup ∧
  (∀ (k : Key) (q : BitVec 8), pc1Net (k ^^^ parityMask q) = pc1Net k) ∧
  pc1Net 0x133457799BBCDFF1#64 = 0xF0CCAAF556678F#56

/-- R77: each PC-2 output bit copies the CD bit its entry names; the first 24 read C' only and the last 24 D' only. -/
def Obligations.Pc2NetworkCopiesTheNamedHalfBits : Prop :=
  (∀ (cd : Bits56) (i : Nat), i < 48 →
    getBit (pc2Net cd) i = getBit cd (pc2Table.getD i 0 - 1) ∧
    (pc2Net cd).getLsbD (47 - i) = cd.getLsbD (56 - pc2Table.getD i 0)) ∧
  (∀ (c d d' : Half) (i : Nat), i < 24 → getBit (pc2Net (recomb c d)) i = getBit (pc2Net (recomb c d')) i) ∧
  (∀ (c c' d : Half) (i : Nat), 24 ≤ i → i < 48 → getBit (pc2Net (recomb c d)) i = getBit (pc2Net (recomb c' d)) i) ∧
  pc2Net 0xE19955FAACCF1E#56 = 0x1B02EFFC7072#48

/-- R72, R76: SPLIT takes the two halves of the bus in order, RECOMB joins them, and each undoes the other. -/
def Obligations.SplitAndRecombineAreInverse : Prop :=
  (∀ (v : Bits56) (j : Nat), j < 28 → getBit (splitC v) j = getBit v j ∧ getBit (splitD v) j = getBit v (28 + j)) ∧
  (∀ (c d : Half) (j : Nat), j < 28 → getBit (recomb c d) j = getBit c j ∧ getBit (recomb c d) (28 + j) = getBit d j) ∧
  (∀ v : Bits56, recomb (splitC v) (splitD v) = v) ∧
  (∀ c d : Half, splitC (recomb c d) = c ∧ splitD (recomb c d) = d) ∧
  splitC 0xF0CCAAF556678F#56 = 0xF0CCAAF#28 ∧ splitD 0xF0CCAAF556678F#56 = 0x556678F#28 ∧
  recomb 0xE19955F#28 0xAACCF1E#28 = 0xE19955FAACCF1E#56

/-- R74: ROTL28 in bit form and in source positions, its composition, and its corner cases. -/
def Obligations.RotateLeftIsACyclicShiftOfTwentyEight : Prop :=
  (∀ (x : Half) (s j : Nat), s ≤ 27 → j ≤ 27 → (rotl28 x s).getLsbD ((j + s) % 28) = x.getLsbD j) ∧
  (∀ (x : Half) (s p : Nat), s ≤ 27 → p ≤ 27 → getBit (rotl28 x s) p = getBit x ((p + s) % 28)) ∧
  (∀ (x : Half) (a b : Nat), a ≤ 27 → b ≤ 27 → rotl28 (rotl28 x a) b = rotl28 x ((a + b) % 28)) ∧
  (∀ x : Half, rotl28 x 0 = x) ∧
  (∀ s, s ≤ 27 → rotl28 0xFFFFFFF#28 s = 0xFFFFFFF#28 ∧ rotl28 0#28 s = 0#28) ∧
  rotl28 0x8000000#28 1 = 0x0000001#28 ∧ rotl28 0xC000000#28 2 = 0x0000003#28 ∧ rotl28 0x4000000#28 2 = 0x0000001#28

/-- R87: rotating right undoes rotating left. -/
def Obligations.RotateRightUndoesRotateLeft : Prop :=
  ∀ (x : Half) (s : Nat), s ≤ 27 → rotr28 (rotl28 x s) s = x

/-- R79, with R12, R42 and R43: PACK changes no bit, and byte j of a key or subkey, byte 0 the most significant, holds source
positions 8j to 8j+7, most significant bit first. -/
def Obligations.BytesAreMostSignificantFirst : Prop :=
  (∀ (k : Key) (p : Nat), p < 64 → (byteAt k (p / 8)).getLsbD (7 - p % 8) = getBit k p) ∧
  (∀ v : Subkey, pack v = v) ∧
  (∀ (v : Subkey) (j : Nat), j < 6 → byteAt (pack v) j = v.extractLsb' (40 - 8 * j) 8) ∧
  (∀ (v : Subkey) (p : Nat), p < 48 → (byteAt (pack v) (p / 8)).getLsbD (7 - p % 8) = getBit v p) ∧
  (List.range 6).map (byteAt (pack 0x1B02EFFC7072#48)) = [0x1B#8, 0x02#8, 0xEF#8, 0xFC#8, 0x70#8, 0x72#8]

/-- R75, R23: no bit crosses between the halves. Whatever D holds, C after a STEP is the same, and the other way round. -/
def Obligations.HalvesNeverMix : Prop :=
  (∀ (s t t' : State) (d : Half), s.fault = false → exec .step s = .next t → exec .step { s with d := d } = .next t' →
    t.c = t'.c) ∧
  (∀ (s t t' : State) (c : Half), s.fault = false → exec .step s = .next t → exec .step { s with c := c } = .next t' →
    t.d = t'.d)

/-! ## The key schedule (40_datapath.md R83 to R89) -/

/-- R84: the halves after n rounds and each subkey, in closed form; CUM's values; after sixteen rounds the halves are those of
the split again. -/
def Obligations.ScheduleHasItsClosedForm : Prop :=
  (List.range 17).map cum = [0, 1, 2, 4, 6, 8, 10, 12, 14, 15, 17, 19, 21, 23, 25, 27, 28] ∧
  (∀ (k : Key) (n : Nat), n ≤ 16 →
    carried k n = (rotl28 (startC k) (cum n % 28), rotl28 (startD k) (cum n % 28))) ∧
  (∀ k : Key, carried k 16 = (startC k, startD k)) ∧
  ∀ (k : Key) (r : Fin 16), ks k r =
    pack (pc2Net (recomb (rotl28 (startC k) (cum (r.val + 1) % 28)) (rotl28 (startD k) (cum (r.val + 1) % 28))))

/-- R85: the parity bits change no subkey. -/
def Obligations.ParityBitsChangeNoSubkey : Prop :=
  (∀ (k : Key) (q : BitVec 8) (r : Fin 16), ks (k ^^^ parityMask q) r = ks k r) ∧
  (∀ r, ks 0x0101010101010101#64 r = 0#48 ∧ ks 0#64 r = 0#48) ∧
  ∀ r, ks 0xFEFEFEFEFEFEFEFE#64 r = 0xFFFFFFFFFFFF#48 ∧ ks 0xFFFFFFFFFFFFFFFF#64 r = 0xFFFFFFFFFFFF#48

/-- R89: complementing the key complements every subkey. -/
def Obligations.ComplementedKeyComplementsEverySubkey : Prop :=
  (∀ (k : Key) (r : Fin 16), ks (~~~k) r = ~~~(ks k r)) ∧
  ∀ r, ks 0#64 r = 0x000000000000#48 ∧ ks 0xFFFFFFFFFFFFFFFF#64 r = 0xFFFFFFFFFFFF#48

/-- R86: flipping one of the 56 non-parity key bits changes between 12 and 15 subkeys, of every key, in the numbers the rule
counts; flipping a parity bit changes none. -/
def Obligations.EveryNonParityKeyBitReachesTwelveToFifteenSubkeys : Prop :=
  ∀ k : Key,
    (∀ p, p < 64 → p % 8 ≠ 7 → 12 ≤ subkeysChanged k p ∧ subkeysChanged k p ≤ 15) ∧
    (∀ p, p < 64 → p % 8 = 7 → subkeysChanged k p = 0) ∧
    ((List.range 64).filter (fun p => subkeysChanged k p == 12)).length = 4 ∧
    ((List.range 64).filter (fun p => subkeysChanged k p == 13)).length = 20 ∧
    ((List.range 64).filter (fun p => subkeysChanged k p == 14)).length = 20 ∧
    ((List.range 64).filter (fun p => subkeysChanged k p == 15)).length = 12

/-- The source's known answer and the sixteen subkeys of the textbook key (V1, V3; R83). -/
def Obligations.TextbookKeyGivesItsSubkeys : Prop :=
  allRounds.map (ks 0x133457799BBCDFF1#64) =
    [0x1B02EFFC7072#48, 0x79AED9DBC9E5#48, 0x55FC8A42CF99#48, 0x72ADD6DB351D#48, 0x7CEC07EB53A8#48, 0x63A53E507B2F#48,
     0xEC84B7F618BC#48, 0xF78A3AC13BFB#48, 0xE0DBEBEDE781#48, 0xB1F347BA464F#48, 0x215FD3DED386#48, 0x7571F59467E9#48,
     0x97C5D1FABA41#48, 0x5F43B7F2E73A#48, 0xBF918D3D3F0A#48, 0xCB3D8B0E17F5#48]

/-! ## The commands (41_commands.md) -/

/-- R91: NOP changes nothing, also when it is dropped; a nonzero IDX is no NOP; after reset STATUS stays 0. -/
def Obligations.NopChangesNothing : Prop :=
  decode 0x00#8 = some .nop ∧
  (∀ s : State, exec .nop s = .next s) ∧
  (∀ s : State, s.pins.cmd = 0x00#8 → accept s = .next s) ∧
  (∀ s : State, s.fault = false → s.pins.cmd.extractLsb' 4 4 = 0x0#4 → s.pins.cmd.extractLsb' 0 4 ≠ 0x0#4 →
    accept s = .next { s with fault := true, ecode := .illegalCmd }) ∧
  ∃ t, exec .nop State.reset = .next t ∧ status t = 0x00000000#32

/-- R92: LDKEY loads the split PC-1 of KEY_IN and starts a schedule; it completes for every key, and the earlier subkeys become
unreadable. SK, SKO and SKO_IDX keep their bits, as the rule's pseudocode says (notes/assumptions/13.md). -/
def Obligations.LoadKeyStartsASchedule : Prop :=
  decode 0x10#8 = some .ldkey ∧
  (∀ s : State, s.fault = false →
    exec .ldkey s = .next
      { s with
        c := splitC (pc1Net s.pins.keyIn), d := splitD (pc1Net s.pins.keyIn), keyed := true, round := 0,
        valid := 0x0000#16, skoValid := false }) ∧
  (∀ s t : State, s.fault = false → exec .ldkey s = .next t →
    done t = false ∧ exec .ldkey t = .next t ∧ visibleSubkey t = none ∧
    ∀ i : BankIdx, exec (.rdsk i) t = .next { t with fault := true, ecode := .skUnwritten }) ∧
  (∀ (s : State) (q : BitVec 8), s.fault = false →
    exec .ldkey { s with pins := { s.pins with keyIn := s.pins.keyIn ^^^ parityMask q } } =
      mapNext (fun t => { t with pins := { s.pins with keyIn := s.pins.keyIn ^^^ parityMask q } }) (exec .ldkey s)) ∧
  ∀ s : State, s.fault = false → s.ecode = .noFault → s.pins.keyIn = 0x133457799BBCDFF1#64 →
    ∃ t, exec .ldkey s = .next t ∧ t.c = 0xF0CCAAF#28 ∧ t.d = 0x556678F#28 ∧ t.round = 0 ∧ status t = 0x00000001#32

/-- R93: STEP faults NO_KEY, then ROUND_OVERRUN, and otherwise runs the round ROUND names, rotating by 1 in rounds 0, 1, 8
and 15 and by 2 in the others. -/
def Obligations.StepRunsTheRoundThatRoundNames : Prop :=
  decode 0x20#8 = some .step ∧
  (∀ s : State, s.fault = false → s.keyed = false →
    exec .step s = .next { s with fault := true, ecode := .noKey }) ∧
  (∀ s : State, s.fault = false → s.keyed = true → s.round = 16 →
    exec .step s = .next { s with fault := true, ecode := .roundOverrun }) ∧
  (∀ (s : State) (r : Fin 16), s.fault = false → s.keyed = true → s.round = r.castSucc →
    let amount := if r = 0 ∨ r = 1 ∨ r = 8 ∨ r = 15 then 1 else 2
    let c' := rotl28 s.c amount
    let d' := rotl28 s.d amount
    let p := pack (pc2Net (recomb c' d'))
    ∃ t, exec .step s = .next t ∧
      t = { s with
            c := c', d := d', sk := s.sk.set r.val p, valid := s.valid ||| BitVec.twoPow 16 r.val, round := r.succ, sko := p,
            skoIdx := BitVec.ofNat 4 r.val, skoValid := true } ∧
      (done t = true ↔ r = 15)) ∧
  (∀ s : State, s.fault = false → s.ecode = .noFault → s.keyed = true → s.round = 0 → s.valid = 0x0000#16 →
    s.c = 0xF0CCAAF#28 → s.d = 0x556678F#28 →
    ∃ t, exec .step s = .next t ∧ t.c = 0xE19955F#28 ∧ t.d = 0xAACCF1E#28 ∧ t.sk[0] = 0x1B02EFFC7072#48 ∧
      t.sko = 0x1B02EFFC7072#48 ∧ t.skoIdx = 0#4 ∧ t.round = 1 ∧ status t = 0x00010803#32) ∧
  ∀ (k : Key) (s t : State), s.fault = false → s.keyed = true → s.round = 15 → ScheduleOf k s → exec .step s = .next t →
    t.c = startC k ∧ t.d = startD k

/-- R94: GEN computes the whole schedule of KEY_IN, whatever the engine held; RDSK then reads every subkey, STEP faults and LDKEY
discards the bank. -/
def Obligations.GenerateComputesTheWholeSchedule : Prop :=
  decode 0x30#8 = some .gen ∧
  (∀ s : State, s.fault = false →
    exec .gen s = .next
      { s with
        c := startC s.pins.keyIn, d := startD s.pins.keyIn, keyed := true, round := 16,
        sk := Vector.ofFn (ks s.pins.keyIn), valid := 0xFFFF#16, sko := ks s.pins.keyIn 15, skoIdx := 15#4,
        skoValid := true }) ∧
  (∀ s t : State, s.fault = false → exec .gen s = .next t →
    done t = true ∧ exec .step t = .next { t with fault := true, ecode := .roundOverrun } ∧
    (∀ i : BankIdx, exec (.rdsk i) t = .next { t with sko := ks s.pins.keyIn i.toFin, skoIdx := i }) ∧
    ∃ u, exec .ldkey t = .next u ∧ u.valid = 0x0000#16 ∧ u.skoValid = false) ∧
  ∀ s : State, s.fault = false → s.ecode = .noFault → s.pins.keyIn = 0x133457799BBCDFF1#64 →
    ∃ t, exec .gen s = .next t ∧ t.sk[0] = 0x1B02EFFC7072#48 ∧ t.sk[15] = 0xCB3D8B0E17F5#48 ∧ t.sko = 0xCB3D8B0E17F5#48 ∧
      t.skoIdx = 15#4 ∧ status t = 0xFFFF0861#32

/-- R95: RDSK i shows entry i where VALID[i] = 1 and faults where it is 0; it moves nothing of the schedule. -/
def Obligations.ReadSubkeyShowsTheNamedEntry : Prop :=
  (∀ i : BankIdx, decode (0x40#8 + i.setWidth 8) = some (.rdsk i)) ∧
  (∀ (s : State) (i : BankIdx), s.fault = false → s.valid.getLsbD i.toNat = true →
    exec (.rdsk i) s = .next { s with sko := s.sk.get i.toFin, skoIdx := i, skoValid := true }) ∧
  (∀ (s : State) (i : BankIdx), s.fault = false → s.valid.getLsbD i.toNat = false →
    exec (.rdsk i) s = .next { s with fault := true, ecode := .skUnwritten }) ∧
  (∀ (s t u : State) (r : Fin 16), s.fault = false → s.keyed = true → s.round = r.castSucc → exec .step s = .next t →
    exec (.rdsk (BitVec.ofNat 4 r.val)) t = .next u → u = t) ∧
  ∀ s t : State, s.fault = false → s.pins.keyIn = 0x133457799BBCDFF1#64 → exec .gen s = .next t →
    ∃ u, exec (.rdsk 1#4) t = .next u ∧ u.sko = 0x79AED9DBC9E5#48 ∧ u.skoIdx = 1#4

/-- R102, with the frame of each command: what a command that raises no fault writes, and that it writes nothing else. -/
def Obligations.CommandsWriteOnlyTheirMarkedState : Prop :=
  ∀ (i : Instr) (s t : State), s.fault = false → exec i s = .next t → t.fault = false →
    (t.ecode = s.ecode ∧ t.inFlight = s.inFlight ∧ t.pins = s.pins ∧ t.holding = s.holding ∧ t.host = s.host) ∧
    match i with
    | .nop => t = s
    | .ldkey =>
      t.sk = s.sk ∧ t.sko = s.sko ∧ t.skoIdx = s.skoIdx ∧
      t.keyed = true ∧ t.round = 0 ∧ t.valid = 0x0000#16 ∧ t.skoValid = false
    | .step =>
      t.keyed = s.keyed ∧ t.round.val = s.round.val + 1 ∧ t.skoValid = true ∧ t.skoIdx = BitVec.ofNat 4 s.round.val ∧
      (∀ j : Fin 16, j.val ≠ s.round.val →
        t.sk.get j = s.sk.get j ∧ t.valid.getLsbD j.val = s.valid.getLsbD j.val) ∧
      ∀ j : Fin 16, j.val = s.round.val → t.sk.get j = t.sko ∧ t.valid.getLsbD j.val = true
    | .gen => t.keyed = true ∧ t.round = 16 ∧ t.valid = 0xFFFF#16 ∧ t.skoIdx = 15#4 ∧ t.skoValid = true
    | .rdsk j =>
      t.c = s.c ∧ t.d = s.d ∧ t.keyed = s.keyed ∧ t.round = s.round ∧ t.sk = s.sk ∧ t.valid = s.valid ∧
      t.skoIdx = j ∧ t.skoValid = true

/-- R27, R97: the only control state is ROUND: a command that raises no fault leaves it, zeroes it (LDKEY), sets it to 16 (GEN)
or advances it by exactly 1 (STEP); a command that raises a fault leaves it. -/
def Obligations.RoundMovesOnlyByOneByLoadOrByGenerate : Prop :=
  ∀ (i : Instr) (s t : State), s.fault = false → exec i s = .next t →
    (t.fault = true → t.round = s.round) ∧
    (t.fault = false → (i = .step → t.round.val = s.round.val + 1) ∧ (i = .ldkey → t.round = 0) ∧ (i = .gen → t.round = 16) ∧
      (i ≠ .step → i ≠ .ldkey → i ≠ .gen → t.round = s.round))

/-- R124: an entry becomes readable only by GEN or by the STEP of its own round. -/
def Obligations.EntriesAppearOnlyInRoundOrder : Prop :=
  ∀ (i : Instr) (s t : State) (r : Fin 16), s.fault = false → exec i s = .next t →
    s.valid.getLsbD r.val = false → t.valid.getLsbD r.val = true → i = .gen ∨ (i = .step ∧ s.round = r.castSucc)

/-- R96: GEN equals LDKEY followed by 16 STEPs, in every state element. -/
def Obligations.GenerateEqualsLoadKeyAndSixteenSteps : Prop :=
  ∀ s : State, s.fault = false →
    execSeq (.ldkey :: List.replicate 16 .step) s = exec .gen s ∧
    ∀ n, n ≤ 16 → ∃ t, execSeq (.ldkey :: List.replicate n .step) s = .next t ∧ t.fault = false ∧ t.round.val = n

/-- R63: the pseudo-commands' expansions, and SCHED ends in the same state as GEN. The assembler puts one value on KEY_IN on every
line that names no key, which is the model's choice (notes/assumptions/18.md); the last clause gives each STEP a KEY_IN value of
its own, and rests on no such choice. -/
def Obligations.SchedEndsInTheStateOfGenerate : Prop :=
  (∀ (other : Key) (n : Nat), expandLine other (.stepn n) = List.replicate n (offer 0x20#8 other)) ∧
  (∀ other : Key, expandLine other .rdall = (List.range 16).map (fun j => offer (BitVec.ofNat 8 (0x40 + j)) other)) ∧
  (∀ (other : Key) (key : Nat),
    expandLine other (.sched key) = expandLine other (.ldkey key) ++ expandLine other (.stepn 16)) ∧
  (∀ (other : Key) (key : Nat) (s : State), s.fault = false → s.inFlight = none →
    ∃ t u, play (assemble other [.sched key]) s = .next t ∧ play (assemble other [.gen key]) s = .next u ∧ SameEngine t u) ∧
  ∀ (k : Key) (onSteps : List Key) (s : State), onSteps.length = 16 → s.fault = false → s.inFlight = none →
    ∃ t u, play (offer 0x10#8 k :: onSteps.map (offer 0x20#8)) s = .next t ∧ play [offer 0x30#8 k] s = .next u ∧ SameEngine t u

/-- R99: streaming LDKEY and 16 STEPs shows the subkeys in encryption order, and after GEN the entries can be read in any
order, decryption order among them. -/
def Obligations.SubkeysStreamInOrderAndReadInAnyOrder : Prop :=
  (∀ (k other : Key) (s : State), s.fault = false → s.inFlight = none →
    (observations (offer 0x10#8 k :: List.replicate 16 (offer 0x20#8 other)) s).map Observation.subkey =
      none :: allRounds.map (fun r => some (ks k r, BitVec.ofNat 4 r.val))) ∧
  ∀ (k other : Key) (s : State) (order : List (Fin 16)), s.fault = false → s.inFlight = none →
    (observations (offer 0x30#8 k :: order.map (fun r => offer (BitVec.ofNat 8 (0x40 + r.val)) other)) s).map
        Observation.subkey =
      some (ks k 15, 15#4) :: order.map (fun r => some (ks k r, BitVec.ofNat 4 r.val))

/-- R100: after LDKEY no subkey of an earlier key can be read, and SKO is not presented as current. -/
def Obligations.NewKeyDiscardsTheOldSchedule : Prop :=
  ∀ s : State, s.fault = false → ∃ t, exec .ldkey s = .next t ∧ visibleSubkey t = none ∧ t.valid = 0x0000#16 ∧
    ∀ i : BankIdx, exec (.rdsk i) t = .next { t with fault := true, ecode := .skUnwritten }

/-- R48: repeating NOP, LDKEY, GEN or RDSK with the same KEY_IN gives the same state again; repeating STEP does not. -/
def Obligations.AllCommandsButStepAreIdempotent : Prop :=
  (∀ (s t : State) (i : Instr), decode s.pins.cmd = some i → i ≠ .step → accept s = .next t → accept t = .next t) ∧
  ∀ (s : State) (r : Fin 16), s.fault = false → s.pins.cmd = 0x20#8 → s.keyed = true → s.round = r.castSucc →
    ∃ t u, accept s = .next t ∧ accept t = .next u ∧ u ≠ t

/-- R104: STATUS after the printed sequences, for every key. -/
def Obligations.StatusAfterCommonSequences : Prop :=
  ∀ k other : Key,
    StatusAfter [] 0x00000000#32 ∧
    StatusAfter [offer 0x10#8 k] 0x00000001#32 ∧
    StatusAfter [offer 0x10#8 k, offer 0x20#8 other] 0x00010803#32 ∧
    StatusAfter (offer 0x10#8 k :: List.replicate 2 (offer 0x20#8 other)) 0x00030805#32 ∧
    StatusAfter (offer 0x10#8 k :: List.replicate 15 (offer 0x20#8 other)) 0x7FFF081F#32 ∧
    StatusAfter (offer 0x10#8 k :: List.replicate 16 (offer 0x20#8 other)) 0xFFFF0861#32 ∧
    StatusAfter [offer 0x30#8 k] 0xFFFF0861#32 ∧
    StatusAfter [offer 0x30#8 k, offer 0x10#8 k] 0x00000001#32 ∧
    StatusAfter [offer 0x20#8 other] 0x00000280#32 ∧
    StatusAfter [offer 0x30#8 k, offer 0x20#8 other] 0xFFFF0BE1#32 ∧
    StatusAfter [offer 0x40#8 other] 0x00000480#32 ∧
    StatusAfter [offer 0x50#8 other] 0x00000180#32

/-! ## STATUS (10_state.md R28, R34) -/

/-- R34, R28: every field of STATUS, in every state; bits 15:12 read 0; the legal values of ROUND and ECODE; 0 at reset. -/
def Obligations.StatusShowsEveryField : Prop :=
  status State.reset = 0x00000000#32 ∧ ∀ s : State, s.round.val ≤ 16 ∧ s.ecode.code.toNat ≤ 4 ∧
    (status s).getLsbD 0 = s.keyed ∧
    (status s).extractLsb' 1 5 = BitVec.ofNat 5 s.round.val ∧
    (status s).getLsbD 6 = (s.keyed && decide (s.round.val = 16)) ∧
    (status s).getLsbD 7 = s.fault ∧
    (status s).extractLsb' 8 3 = s.ecode.code ∧
    (status s).getLsbD 11 = s.skoValid ∧
    (status s).extractLsb' 12 4 = 0#4 ∧
    (∀ r, r < 16 → (status s).getLsbD (16 + r) = s.valid.getLsbD r)

/-! ## Faults (60_exceptions.md) -/

/-- R103, R106: which command raises which fault, and when; the codes; any command is dropped when FAULT = 1. -/
def Obligations.EachFaultIsRaisedExactlyOnItsCondition : Prop :=
  (∀ s : State, s.fault = true → accept s = .next s) ∧
  (∀ s t : State, s.fault = false → s.ecode = .noFault → accept s = .next t →
    (t.ecode = .illegalCmd ↔ decode s.pins.cmd = none) ∧
    (t.ecode = .noKey ↔ decode s.pins.cmd = some .step ∧ s.keyed = false) ∧
    (t.ecode = .roundOverrun ↔ decode s.pins.cmd = some .step ∧ s.keyed = true ∧ s.round = 16) ∧
    (t.ecode = .skUnwritten ↔ ∃ i : BankIdx, decode s.pins.cmd = some (.rdsk i) ∧ s.valid.getLsbD i.toNat = false) ∧
    (t.fault = true ↔ t.ecode ≠ .noFault)) ∧
  Ecode.noFault.code = 0#3 ∧ Ecode.illegalCmd.code = 1#3 ∧ Ecode.noKey.code = 2#3 ∧ Ecode.roundOverrun.code = 3#3 ∧
  Ecode.skUnwritten.code = 4#3 ∧ ∀ e : Ecode, e.code.toNat ≤ 4

/-- R112: faults are precise: after a command that raises one, the state is the state before apart from FAULT and ECODE, which
STATUS shows. -/
def Obligations.FaultEntryWritesOnlyFaultAndCode : Prop :=
  ∀ s t : State, s.fault = false → accept s = .next t → t.fault = true →
    t = { s with fault := true, ecode := t.ecode } ∧ t.ecode ≠ .noFault ∧
    (status t).getLsbD 7 = true ∧ (status t).extractLsb' 8 3 = t.ecode.code

/-- R113: with FAULT = 1 a command offered, or one held, is dropped, at transaction level and at the clock edge, with CMD_READY
left at 1 and everything a host sees unchanged; without RST no step leaves the faulted state, and RST does. That the host is a
list whose first entry a step uses up, and that RST wins over a command offered at the same edge, are the model's choices
(notes/assumptions/4.md, 14.md). -/
def Obligations.FaultedEngineDropsEveryCommandUntilReset : Prop :=
  (∀ (s : State) (p : Pins) (rest : List Pins), s.fault = true → s.inFlight = none → s.holding = false → s.host = p :: rest →
    p.rst = false →
    step s = .next { s with pins := p, host := rest } ∧ tick s = .next { s with pins := p, host := rest } ∧
    cmdReady { s with pins := p, host := rest } = true) ∧
  (∀ s : State, s.fault = true → s.inFlight = none → s.holding = true → (∀ p rest, s.host = p :: rest → p.rst = false) →
    ∃ t, step s = .next t ∧ tick s = .next t ∧ SameEngine t s ∧ t.holding = false ∧ cmdReady t = true ∧ observe t = observe s) ∧
  (∀ s t : State, s.fault = true → (∀ p rest, s.host = p :: rest → p.rst = false) → step s = .next t →
    t.fault = true ∧ t.ecode = s.ecode ∧ observe t = observe s) ∧
  ∀ (s : State) (p : Pins) (rest : List Pins), s.host = p :: rest → p.rst = true →
    ∃ t, step s = .next t ∧ t.fault = false ∧ t.ecode = .noFault ∧ observe t = observe State.reset

/-- R29: only reset clears FAULT; no command does. -/
def Obligations.OnlyResetClearsTheFaultFlag : Prop :=
  ∀ s t : State, s.fault = true → (step s = .next t ∨ tick s = .next t) → t.fault = false →
    ∃ p rest, s.host = p :: rest ∧ p.rst = true

/-- R105, R88, R113: no command, no step and no clock edge stops the machine, in any state. -/
def Obligations.NothingStopsTheMachine : Prop :=
  (∀ (i : Instr) (s : State), ∃ t, exec i s = .next t) ∧ (∀ s : State, ∃ t, step s = .next t) ∧ ∀ s : State, ∃ t, tick s = .next t

/-! ## The step (20_memory.md R50, 41_commands.md R90) -/

/-- R90, R50: a step whose command decodes to `i` runs exec of `i`, on the ports as the host drives them and with the rest of
the host's list left, and one whose word is reserved raises ILLEGAL_CMD and changes nothing else of the engine. The third clause
says it of every command on offer, new or held, with the ports as `present` shows them (HostMayChangeKeyOrResetWhileItsOfferIsHeld
says what those are). A word placed by withFetchWord is the next command run, or the next reserved word. The host's list is the
model's choice (notes/assumptions/4.md, 5.md). -/
def Obligations.StepRunsTheDecodedCommand : Prop :=
  (∀ (s : State) (p : Pins) (rest : List Pins) (i : Instr), s.fault = false → s.inFlight = none → s.holding = false →
    s.host = p :: rest → p.rst = false → p.cmdValid = true → decode p.cmd = some i →
    step s = exec i { s with pins := p, host := rest }) ∧
  (∀ (s : State) (p : Pins) (rest : List Pins), s.fault = false → s.inFlight = none → s.holding = false →
    s.host = p :: rest → p.rst = false → p.cmdValid = true → decode p.cmd = none →
    step s = .next { s with pins := p, host := rest, fault := true, ecode := .illegalCmd }) ∧
  (∀ s : State, s.fault = false → s.inFlight = none → (∀ p rest, s.host = p :: rest → p.rst = false) →
    (present s).holding = true →
    (∀ i, decode (present s).pins.cmd = some i → step s = exec i { present s with holding := false }) ∧
    (decode (present s).pins.cmd = none →
      step s = .next { present s with holding := false, fault := true, ecode := .illegalCmd })) ∧
  (∀ (s : State) (w : Nat) (i : Instr), s.fault = false → decodeTableWord 8 w = some i →
    step (s.withFetchWord 8 w) =
      exec i { s with
               inFlight := none
               pins := { rst := false, cmdValid := true, cmd := BitVec.ofNat 8 w, keyIn := s.pins.keyIn }
               holding := false }) ∧
  ∀ (s : State) (w : Nat), s.fault = false → decode (BitVec.ofNat 8 w) = none →
    step (s.withFetchWord 8 w) =
      .next { s with
              inFlight := none
              pins := { rst := false, cmdValid := true, cmd := BitVec.ofNat 8 w, keyIn := s.pins.keyIn }
              holding := false
              fault := true
              ecode := .illegalCmd }

/-- R48, R133: an edge at which the host offers no command, and none is held, changes nothing of the engine, whatever it drives on
CMD and KEY_IN; nor does a step with nothing driven. The host's list is the model's choice (notes/assumptions/4.md). -/
def Obligations.OnlyAcceptedCommandsChangeTheEngine : Prop :=
  (∀ (s : State) (p : Pins) (rest : List Pins), s.inFlight = none → s.holding = false → s.host = p :: rest → p.rst = false →
    p.cmdValid = false →
    step s = .next { s with pins := p, host := rest } ∧ tick s = .next { s with pins := p, host := rest }) ∧
  ∀ s : State, s.inFlight = none → s.holding = false → s.host = [] → step s = .next s ∧ tick s = .next s

/-- R47, R54, R57: KEY_IN matters to LDKEY and GEN only: every other command does the same whatever KEY_IN is. -/
def Obligations.KeyInMattersOnlyToLoadKeyAndGenerate : Prop :=
  ∀ (i : Instr) (s : State) (k : Key), i ≠ .ldkey → i ≠ .gen →
    exec i { s with pins := { s.pins with keyIn := k } } =
      mapNext (fun t => { t with pins := { s.pins with keyIn := k } }) (exec i s)

/-- R38, R101: state with no value is never read. Two states that agree but for it take steps to states that agree again, and a
host sees the same of both. So no observation depends on the values the model chose for C, D, SK, SKO and SKO_IDX at reset. -/
def Obligations.StateWithNoValueIsNeverObserved : Prop :=
  (∀ s t : State, Agree s t → observe s = observe t) ∧
  ∀ s t s' t' : State, Agree s t → step s = .next s' → step t = .next t' → Agree s' t' ∧ observe s' = observe t'

/-! ## The invariant (10_state.md R36) -/

/-- R36: reset establishes the invariants. -/
def Obligations.ResetEstablishesTheInvariants : Prop := Inv State.reset ∧ ReadyWhenFaulted State.reset

/-- R36: every step keeps the invariants, from every state that meets them. -/
def Obligations.EveryStepKeepsTheInvariants : Prop := ∀ s t : State, Inv s → step s = .next t → Inv t

/-- R36 at the clock edge, with CMD_READY = 1 while FAULT = 1 (R113). -/
def Obligations.EveryClockEdgeKeepsTheInvariants : Prop :=
  ∀ s t : State, Inv s → ReadyWhenFaulted s → tick s = .next t → Inv t ∧ ReadyWhenFaulted t

/-- R36: the key the invariant speaks of is the last one loaded: LDKEY and GEN bring it in from KEY_IN, and every other command
keeps it. -/
def Obligations.ScheduleIsThatOfTheLastKeyLoaded : Prop :=
  (∀ (i : Instr) (s t : State), s.fault = false → (i = .ldkey ∨ i = .gen) → exec i s = .next t →
    ScheduleOf s.pins.keyIn t) ∧
  ∀ (i : Instr) (s t : State) (k : Key), s.fault = false → i ≠ .ldkey → i ≠ .gen → ScheduleOf k s → exec i s = .next t →
    ScheduleOf k t

/-! ## Reset (70_reset_and_hazards.md) -/

/-- R120: RST puts the flags to their reset values from every state, abandons a command in progress, and what results depends
on nothing the engine held. -/
def Obligations.ResetClearsEveryFlagFromEveryState : Prop :=
  ∀ (s : State) (p : Pins) (rest : List Pins), s.host = p :: rest → p.rst = true →
    ∃ t, step s = .next t ∧ tick s = .next t ∧ t.keyed = false ∧ t.round = 0 ∧ t.valid = 0x0000#16 ∧ t.fault = false ∧
      t.ecode = .noFault ∧ t.skoValid = false ∧ t.inFlight = none ∧ t.pins = p ∧ t.holding = false ∧ t.host = rest ∧
      ∀ s' : State, s'.host = p :: rest → step s' = .next t

/-- R39, with R121: the values the spec gives for reset: STATUS is 0, CMD_READY is 1, SKO shows nothing. C, D, SK, SKO and
SKO_IDX have no value there, so nothing is said of them. -/
def Obligations.ResetGivesEveryFlagItsValue : Prop :=
  State.reset.keyed = false ∧ State.reset.round = 0 ∧ State.reset.valid = 0x0000#16 ∧ State.reset.fault = false ∧
  State.reset.ecode = .noFault ∧ State.reset.skoValid = false ∧ status State.reset = 0x00000000#32 ∧
  cmdReady State.reset = true ∧ visibleSubkey State.reset = none

/-- R123: before any key, STEP faults with NO_KEY and every RDSK with SK_UNWRITTEN; LDKEY and GEN run. -/
def Obligations.BeforeAnyKeyStepAndReadFault : Prop :=
  ∀ p : Pins,
    exec .step { State.reset with pins := p } = .next { State.reset with pins := p, fault := true, ecode := .noKey } ∧
    (∀ i, exec (.rdsk i) { State.reset with pins := p } =
      .next { State.reset with pins := p, fault := true, ecode := .skUnwritten }) ∧
    (∀ i : Instr, i = .ldkey ∨ i = .gen → ∃ t, exec i { State.reset with pins := p } = .next t ∧ t.fault = false ∧ t.keyed = true)

/-! ## Runs (70_reset_and_hazards.md R132) -/

/-- R132: every run reaches its end; a run that has faulted stays as it is however it is extended, short of a reset. -/
def Obligations.FaultedRunDropsEveryLaterCommand : Prop :=
  (∀ script : List Pins, ∃ t, play script State.reset = .next t) ∧
  ∀ (script later : List Pins) (t : State), NoReset later → play script State.reset = .next t → t.fault = true →
    ∃ u, play (script ++ later) State.reset = .next u ∧ SameEngine u t ∧ ¬EndsWell (script ++ later)

/-! ## The handshake (70_reset_and_hazards.md R126, R128) -/

/-- R9, R128: each latency is at least 1. -/
def Obligations.EveryLatencyIsAtLeastOne : Prop :=
  1 ≤ Config.latNop ∧ 1 ≤ Config.latLdkey ∧ 1 ≤ Config.latStep ∧ 1 ≤ Config.latGen ∧ 1 ≤ Config.latRdsk ∧
  ∀ w : CmdWord, 1 ≤ latencyOf (decode w)

/-- R126, R128, R50: clock edges implement the step. From the acceptance of a command on offer, new or held, one edge and as many
more as the command's latency end in the engine the step gives, whatever the latency is and whatever the host goes on driving
short of RST. No offer is lost: after the accepted command, those still to come are the same. That a command's latency is one
number, the edge of its completion, and how an offer is held are the model's choices (notes/assumptions/8.md, 9.md, 22.md). -/
def Obligations.ClockEdgesImplementTheStep : Prop :=
  ∀ s : State, s.fault = false → s.inFlight = none → NoReset s.host → (present s).holding = true →
    ∃ t u, step s = .next t ∧ ticks (1 + latencyOf (decode (present s).pins.cmd)) s = .next u ∧ SameEngine u t ∧
      cmdReady u = true ∧ offersToCome s = (present s).pins.cmd :: offersToCome t ∧ offersToCome u = offersToCome t

/-- R126, R52, R54: while a command is in progress CMD_READY is 0, a command offered is held and not lost, and nothing a host
sees of the engine changes. The edge that completes the command holds an offer too, and leaves CMD_READY = 1. That it accepts none,
and that an offer after the one held waits in the host's list, are the model's choices (notes/assumptions/9.md, 22.md). -/
def Obligations.CommandInProgressShowsNothingAndHoldsTheNext : Prop :=
  (∀ (s : State) (f : InFlight), s.inFlight = some f → 2 ≤ f.cyclesLeft → (∀ p rest, s.host = p :: rest → p.rst = false) →
    ∃ t, tick s = .next t ∧ SameEngine { t with inFlight := s.inFlight } s ∧
      t.inFlight = some { f with cyclesLeft := f.cyclesLeft - 1 } ∧ cmdReady t = false ∧ observe t = observe s ∧
      offersToCome t = offersToCome s ∧
      (∀ p rest, s.host = p :: rest → p.cmdValid = true → s.holding = false → t.holding = true ∧ t.pins = p ∧ t.host = rest) ∧
      (s.holding = true → t.holding = true ∧ t.pins.cmd = s.pins.cmd)) ∧
  ∀ (s : State) (f : InFlight), s.inFlight = some f → f.cyclesLeft ≤ 1 → (∀ p rest, s.host = p :: rest → p.rst = false) →
    ∃ t, tick s = .next t ∧ t.inFlight = none ∧ cmdReady t = true ∧ offersToCome t = offersToCome s ∧
      (∀ p rest, s.host = p :: rest → p.cmdValid = true → s.holding = false → t.holding = true ∧ t.pins = p ∧ t.host = rest) ∧
      (s.holding = true → t.holding = true ∧ t.pins.cmd = s.pins.cmd)

/-- R47, R125, R54: the key is sampled once, at acceptance. The acceptance edge records the ports as that edge shows them, for an
offer made at that edge and for one held; the completion, by a step or by the last edge, is the frame `accept` on those recorded
ports; what the ports show then changes nothing of what it does. That the latency recorded is one number for each command, and
one of its own for reserved words, and which edge completes the command, are the model's choices (notes/assumptions/8.md, 9.md). -/
def Obligations.KeyIsSampledOnceAtAcceptance : Prop :=
  (∀ (s : State) (p : Pins) (rest : List Pins), s.fault = false → s.inFlight = none → s.holding = false →
    s.host = p :: rest → p.rst = false → p.cmdValid = true →
    ∃ t, tick s = .next t ∧ t.inFlight = some { sampled := p, cyclesLeft := latencyOf (decode p.cmd) }) ∧
  (∀ s : State, s.fault = false → s.inFlight = none → (∀ q rest, s.host = q :: rest → q.rst = false) →
    (present s).holding = true →
    ∃ t, tick s = .next t ∧
      t.inFlight = some { sampled := (present s).pins, cyclesLeft := latencyOf (decode (present s).pins.cmd) }) ∧
  (∀ (s : State) (f : InFlight), s.inFlight = some f → (∀ q rest, s.host = q :: rest → q.rst = false) →
    ∃ u, accept { s with pins := f.sampled, inFlight := none } = .next u ∧ step s = .next { u with pins := s.pins } ∧
      (f.cyclesLeft ≤ 1 → ∃ t, tick s = .next t ∧ SameEngine t u)) ∧
  ∀ (s t : State) (f : InFlight) (p : Pins), s.inFlight = some f → (∀ q rest, s.host = q :: rest → q.rst = false) →
    step s = .next t → step { s with pins := p } = .next { t with pins := p }

/-- R133, R126, R54, R120: what the ports show at an edge, and that a host whose offer is held may go on changing KEY_IN and may
assert RST. An entry that offers none changes KEY_IN and leaves the offer; RST resets the engine, whatever is in progress or held;
the offer is accepted with the KEY_IN of its own acceptance edge. That an entry that offers another command waits while one is held,
and that RST ends the hold, are the model's choices (notes/assumptions/22.md, 14.md). -/
def Obligations.HostMayChangeKeyOrResetWhileItsOfferIsHeld : Prop :=
  (∀ s : State, s.host = [] → present s = s) ∧
  (∀ (s : State) (p : Pins) (rest : List Pins), s.holding = false → s.host = p :: rest →
    present s = { s with pins := p, holding := p.cmdValid, host := rest }) ∧
  (∀ (s : State) (p : Pins) (rest : List Pins), s.holding = true → s.host = p :: rest → p.cmdValid = false →
    present s = { s with pins := { p with cmdValid := true, cmd := s.pins.cmd }, host := rest }) ∧
  (∀ (s : State) (p : Pins) (rest : List Pins), s.holding = true → s.host = p :: rest → p.cmdValid = true → present s = s) ∧
  (∀ (s : State) (f : InFlight), s.inFlight = some f → s.holding = true → (∀ p rest, s.host = p :: rest → p.rst = false) →
    ∃ t, tick s = .next t ∧ t.holding = true ∧ t.pins = (present s).pins ∧ t.host = (present s).host) ∧
  (∀ s : State, s.fault = false → s.inFlight = none → s.holding = true → (∀ p rest, s.host = p :: rest → p.rst = false) →
    ∃ t, tick s = .next t ∧ t.holding = false ∧
      t.inFlight = some { sampled := (present s).pins, cyclesLeft := latencyOf (decode s.pins.cmd) }) ∧
  ∀ (s : State) (p : Pins) (rest : List Pins), s.holding = true → s.host = p :: rest → p.rst = true →
    ∃ t, step s = .next t ∧ tick s = .next t ∧ t.inFlight = none ∧ t.holding = false ∧ t.host = rest ∧
      observe t = observe State.reset
end

