-- ==== Sys2Proof/Laws/State.lean ====
section
/-! SUPPORT. One lemma for each field of each state update, true by unfolding, so that no proof unfolds a record update. -/

namespace Sys2Proof.Machine

/-! ## raiseFault -/

@[simp] theorem raiseFault_c (e : Ecode) (s : State) : (raiseFault e s).c = s.c := rfl
@[simp] theorem raiseFault_d (e : Ecode) (s : State) : (raiseFault e s).d = s.d := rfl
@[simp] theorem raiseFault_keyed (e : Ecode) (s : State) : (raiseFault e s).keyed = s.keyed := rfl
@[simp] theorem raiseFault_round (e : Ecode) (s : State) : (raiseFault e s).round = s.round := rfl
@[simp] theorem raiseFault_sk (e : Ecode) (s : State) : (raiseFault e s).sk = s.sk := rfl
@[simp] theorem raiseFault_valid (e : Ecode) (s : State) : (raiseFault e s).valid = s.valid := rfl
@[simp] theorem raiseFault_fault (e : Ecode) (s : State) : (raiseFault e s).fault = true := rfl
@[simp] theorem raiseFault_ecode (e : Ecode) (s : State) : (raiseFault e s).ecode = e := rfl
@[simp] theorem raiseFault_sko (e : Ecode) (s : State) : (raiseFault e s).sko = s.sko := rfl
@[simp] theorem raiseFault_skoIdx (e : Ecode) (s : State) : (raiseFault e s).skoIdx = s.skoIdx := rfl
@[simp] theorem raiseFault_skoValid (e : Ecode) (s : State) : (raiseFault e s).skoValid = s.skoValid := rfl
@[simp] theorem raiseFault_inFlight (e : Ecode) (s : State) : (raiseFault e s).inFlight = s.inFlight := rfl
@[simp] theorem raiseFault_pins (e : Ecode) (s : State) : (raiseFault e s).pins = s.pins := rfl
@[simp] theorem raiseFault_holding (e : Ecode) (s : State) : (raiseFault e s).holding = s.holding := rfl
@[simp] theorem raiseFault_host (e : Ecode) (s : State) : (raiseFault e s).host = s.host := rfl

/-! ## loadHalves -/

@[simp] theorem loadHalves_c (x y : Half) (s : State) : (loadHalves x y s).c = x := rfl
@[simp] theorem loadHalves_d (x y : Half) (s : State) : (loadHalves x y s).d = y := rfl
@[simp] theorem loadHalves_keyed (x y : Half) (s : State) : (loadHalves x y s).keyed = true := rfl
@[simp] theorem loadHalves_round (x y : Half) (s : State) : (loadHalves x y s).round = s.round := rfl
@[simp] theorem loadHalves_sk (x y : Half) (s : State) : (loadHalves x y s).sk = s.sk := rfl
@[simp] theorem loadHalves_valid (x y : Half) (s : State) : (loadHalves x y s).valid = s.valid := rfl
@[simp] theorem loadHalves_fault (x y : Half) (s : State) : (loadHalves x y s).fault = s.fault := rfl
@[simp] theorem loadHalves_ecode (x y : Half) (s : State) : (loadHalves x y s).ecode = s.ecode := rfl
@[simp] theorem loadHalves_sko (x y : Half) (s : State) : (loadHalves x y s).sko = s.sko := rfl
@[simp] theorem loadHalves_skoIdx (x y : Half) (s : State) : (loadHalves x y s).skoIdx = s.skoIdx := rfl
@[simp] theorem loadHalves_skoValid (x y : Half) (s : State) : (loadHalves x y s).skoValid = s.skoValid := rfl
@[simp] theorem loadHalves_inFlight (x y : Half) (s : State) : (loadHalves x y s).inFlight = s.inFlight := rfl
@[simp] theorem loadHalves_pins (x y : Half) (s : State) : (loadHalves x y s).pins = s.pins := rfl
@[simp] theorem loadHalves_holding (x y : Half) (s : State) : (loadHalves x y s).holding = s.holding := rfl
@[simp] theorem loadHalves_host (x y : Half) (s : State) : (loadHalves x y s).host = s.host := rfl

/-! ## driveSko -/

@[simp] theorem driveSko_c (p : Subkey) (i : BankIdx) (s : State) : (driveSko p i s).c = s.c := rfl
@[simp] theorem driveSko_d (p : Subkey) (i : BankIdx) (s : State) : (driveSko p i s).d = s.d := rfl
@[simp] theorem driveSko_keyed (p : Subkey) (i : BankIdx) (s : State) : (driveSko p i s).keyed = s.keyed := rfl
@[simp] theorem driveSko_round (p : Subkey) (i : BankIdx) (s : State) : (driveSko p i s).round = s.round := rfl
@[simp] theorem driveSko_sk (p : Subkey) (i : BankIdx) (s : State) : (driveSko p i s).sk = s.sk := rfl
@[simp] theorem driveSko_valid (p : Subkey) (i : BankIdx) (s : State) : (driveSko p i s).valid = s.valid := rfl
@[simp] theorem driveSko_fault (p : Subkey) (i : BankIdx) (s : State) : (driveSko p i s).fault = s.fault := rfl
@[simp] theorem driveSko_ecode (p : Subkey) (i : BankIdx) (s : State) : (driveSko p i s).ecode = s.ecode := rfl
@[simp] theorem driveSko_sko (p : Subkey) (i : BankIdx) (s : State) : (driveSko p i s).sko = p := rfl
@[simp] theorem driveSko_skoIdx (p : Subkey) (i : BankIdx) (s : State) : (driveSko p i s).skoIdx = i := rfl
@[simp] theorem driveSko_skoValid (p : Subkey) (i : BankIdx) (s : State) : (driveSko p i s).skoValid = true := rfl
@[simp] theorem driveSko_inFlight (p : Subkey) (i : BankIdx) (s : State) : (driveSko p i s).inFlight = s.inFlight := rfl
@[simp] theorem driveSko_pins (p : Subkey) (i : BankIdx) (s : State) : (driveSko p i s).pins = s.pins := rfl
@[simp] theorem driveSko_holding (p : Subkey) (i : BankIdx) (s : State) : (driveSko p i s).holding = s.holding := rfl
@[simp] theorem driveSko_host (p : Subkey) (i : BankIdx) (s : State) : (driveSko p i s).host = s.host := rfl

/-! ## writeEntry -/

@[simp] theorem writeEntry_c (r : Fin 16) (p : Subkey) (s : State) : (writeEntry r p s).c = s.c := rfl
@[simp] theorem writeEntry_d (r : Fin 16) (p : Subkey) (s : State) : (writeEntry r p s).d = s.d := rfl
@[simp] theorem writeEntry_keyed (r : Fin 16) (p : Subkey) (s : State) : (writeEntry r p s).keyed = s.keyed := rfl
@[simp] theorem writeEntry_round (r : Fin 16) (p : Subkey) (s : State) : (writeEntry r p s).round = s.round := rfl
@[simp] theorem writeEntry_sk (r : Fin 16) (p : Subkey) (s : State) : (writeEntry r p s).sk = s.sk.set r.val p := rfl
@[simp] theorem writeEntry_valid (r : Fin 16) (p : Subkey) (s : State) : (writeEntry r p s).valid = s.valid ||| BitVec.twoPow 16 r.val := rfl
@[simp] theorem writeEntry_fault (r : Fin 16) (p : Subkey) (s : State) : (writeEntry r p s).fault = s.fault := rfl
@[simp] theorem writeEntry_ecode (r : Fin 16) (p : Subkey) (s : State) : (writeEntry r p s).ecode = s.ecode := rfl
@[simp] theorem writeEntry_sko (r : Fin 16) (p : Subkey) (s : State) : (writeEntry r p s).sko = s.sko := rfl
@[simp] theorem writeEntry_skoIdx (r : Fin 16) (p : Subkey) (s : State) : (writeEntry r p s).skoIdx = s.skoIdx := rfl
@[simp] theorem writeEntry_skoValid (r : Fin 16) (p : Subkey) (s : State) : (writeEntry r p s).skoValid = s.skoValid := rfl
@[simp] theorem writeEntry_inFlight (r : Fin 16) (p : Subkey) (s : State) : (writeEntry r p s).inFlight = s.inFlight := rfl
@[simp] theorem writeEntry_pins (r : Fin 16) (p : Subkey) (s : State) : (writeEntry r p s).pins = s.pins := rfl
@[simp] theorem writeEntry_holding (r : Fin 16) (p : Subkey) (s : State) : (writeEntry r p s).holding = s.holding := rfl
@[simp] theorem writeEntry_host (r : Fin 16) (p : Subkey) (s : State) : (writeEntry r p s).host = s.host := rfl

/-! ## drive -/

@[simp] theorem drive_c (p : Pins) (rest : List Pins) (s : State) : (drive p rest s).c = s.c := rfl
@[simp] theorem drive_d (p : Pins) (rest : List Pins) (s : State) : (drive p rest s).d = s.d := rfl
@[simp] theorem drive_keyed (p : Pins) (rest : List Pins) (s : State) : (drive p rest s).keyed = s.keyed := rfl
@[simp] theorem drive_round (p : Pins) (rest : List Pins) (s : State) : (drive p rest s).round = s.round := rfl
@[simp] theorem drive_sk (p : Pins) (rest : List Pins) (s : State) : (drive p rest s).sk = s.sk := rfl
@[simp] theorem drive_valid (p : Pins) (rest : List Pins) (s : State) : (drive p rest s).valid = s.valid := rfl
@[simp] theorem drive_fault (p : Pins) (rest : List Pins) (s : State) : (drive p rest s).fault = s.fault := rfl
@[simp] theorem drive_ecode (p : Pins) (rest : List Pins) (s : State) : (drive p rest s).ecode = s.ecode := rfl
@[simp] theorem drive_sko (p : Pins) (rest : List Pins) (s : State) : (drive p rest s).sko = s.sko := rfl
@[simp] theorem drive_skoIdx (p : Pins) (rest : List Pins) (s : State) : (drive p rest s).skoIdx = s.skoIdx := rfl
@[simp] theorem drive_skoValid (p : Pins) (rest : List Pins) (s : State) : (drive p rest s).skoValid = s.skoValid := rfl
@[simp] theorem drive_inFlight (p : Pins) (rest : List Pins) (s : State) : (drive p rest s).inFlight = s.inFlight := rfl
@[simp] theorem drive_pins (p : Pins) (rest : List Pins) (s : State) : (drive p rest s).pins = p := rfl
@[simp] theorem drive_holding (p : Pins) (rest : List Pins) (s : State) : (drive p rest s).holding = s.holding := rfl
@[simp] theorem drive_host (p : Pins) (rest : List Pins) (s : State) : (drive p rest s).host = rest := rfl

/-! ## takeOffer -/

@[simp] theorem takeOffer_c (s : State) : (takeOffer s).c = s.c := rfl
@[simp] theorem takeOffer_d (s : State) : (takeOffer s).d = s.d := rfl
@[simp] theorem takeOffer_keyed (s : State) : (takeOffer s).keyed = s.keyed := rfl
@[simp] theorem takeOffer_round (s : State) : (takeOffer s).round = s.round := rfl
@[simp] theorem takeOffer_sk (s : State) : (takeOffer s).sk = s.sk := rfl
@[simp] theorem takeOffer_valid (s : State) : (takeOffer s).valid = s.valid := rfl
@[simp] theorem takeOffer_fault (s : State) : (takeOffer s).fault = s.fault := rfl
@[simp] theorem takeOffer_ecode (s : State) : (takeOffer s).ecode = s.ecode := rfl
@[simp] theorem takeOffer_sko (s : State) : (takeOffer s).sko = s.sko := rfl
@[simp] theorem takeOffer_skoIdx (s : State) : (takeOffer s).skoIdx = s.skoIdx := rfl
@[simp] theorem takeOffer_skoValid (s : State) : (takeOffer s).skoValid = s.skoValid := rfl
@[simp] theorem takeOffer_inFlight (s : State) : (takeOffer s).inFlight = s.inFlight := rfl
@[simp] theorem takeOffer_pins (s : State) : (takeOffer s).pins = s.pins := rfl
@[simp] theorem takeOffer_holding (s : State) : (takeOffer s).holding = false := rfl
@[simp] theorem takeOffer_host (s : State) : (takeOffer s).host = s.host := rfl

/-! ## resetEvent -/

@[simp] theorem resetEvent_keyed (p : Pins) (rest : List Pins) : (resetEvent p rest).keyed = false := rfl
@[simp] theorem resetEvent_round (p : Pins) (rest : List Pins) : (resetEvent p rest).round = 0 := rfl
@[simp] theorem resetEvent_valid (p : Pins) (rest : List Pins) : (resetEvent p rest).valid = 0#16 := rfl
@[simp] theorem resetEvent_fault (p : Pins) (rest : List Pins) : (resetEvent p rest).fault = false := rfl
@[simp] theorem resetEvent_ecode (p : Pins) (rest : List Pins) : (resetEvent p rest).ecode = .noFault := rfl
@[simp] theorem resetEvent_skoValid (p : Pins) (rest : List Pins) : (resetEvent p rest).skoValid = false := rfl
@[simp] theorem resetEvent_inFlight (p : Pins) (rest : List Pins) : (resetEvent p rest).inFlight = none := rfl
@[simp] theorem resetEvent_pins (p : Pins) (rest : List Pins) : (resetEvent p rest).pins = p := rfl
@[simp] theorem resetEvent_holding (p : Pins) (rest : List Pins) : (resetEvent p rest).holding = false := rfl
@[simp] theorem resetEvent_host (p : Pins) (rest : List Pins) : (resetEvent p rest).host = rest := rfl

/-! ## Results -/

@[simp] theorem mapNext_next (f : State → State) (s : State) : mapNext f (.next s) = .next (f s) := rfl

/-! ## Flags: each is a function of the fields it names -/

theorem done_congr {s t : State} (hk : s.keyed = t.keyed) (hr : s.round = t.round) : done s = done t := by
  unfold done; rw [hk, hr]

theorem status_congr {s t : State} (hk : s.keyed = t.keyed) (hr : s.round = t.round) (hv : s.valid = t.valid)
    (hf : s.fault = t.fault) (he : s.ecode = t.ecode) (hs : s.skoValid = t.skoValid) : status s = status t := by
  unfold status roundBits
  rw [done_congr hk hr, hk, hr, hv, hf, he, hs]

end Sys2Proof.Machine
end

