-- ==== Sys2Proof/Laws/Commands.lean ====
section
/-! SUPPORT. What each command does, one lemma a case, and `exec_cases`: everything a command can do, said once. Proofs about a
command cite these and never unfold `exec`. -/

namespace Sys2Proof.Machine

/-! ## One lemma a case -/

/-- ROUND is 16 or names a round. -/
theorem round_cases (s : State) : s.round = 16 ∨ ∃ r : Fin 16, s.round = r.castSucc := by
  by_cases h : s.round.val < 16
  · exact .inr ⟨⟨s.round.val, h⟩, rfl⟩
  · have hlt := s.round.isLt
    exact .inl (Fin.ext (show s.round.val = 16 by omega))

theorem val_of_round_eq {s : State} {r : Fin 16} (h : s.round = r.castSucc) : s.round.val = r.val := by rw [h]; rfl

theorem exec_nop (s : State) : exec .nop s = .next s := rfl

theorem exec_ldkey (s : State) :
    exec .ldkey s = .next { loadHalves (startC s.pins.keyIn) (startD s.pins.keyIn) s with
                            round := 0, valid := 0#16, skoValid := false } := rfl

theorem exec_step_unkeyed {s : State} (hk : s.keyed = false) : exec .step s = .next (raiseFault .noKey s) := by
  simp only [exec, execStep, hk]
  rfl

theorem exec_step_overrun {s : State} (hk : s.keyed = true) (hr : s.round = 16) :
    exec .step s = .next (raiseFault .roundOverrun s) := by
  simp only [exec, execStep, hk, hr]
  rfl

/-- The state a STEP at round `r` leaves. -/
def afterRound (s : State) (r : Fin 16) : State :=
  let o := roundF s.c s.d r
  driveSko o.subkey (BitVec.ofNat 4 r.val) (writeEntry r o.subkey { s with c := o.c, d := o.d, round := r.succ })

theorem exec_step_round {s : State} {r : Fin 16} (hk : s.keyed = true) (hr : s.round = r.castSucc) :
    exec .step s = .next (afterRound s r) := by
  have hlt : s.round.val < 16 := by rw [val_of_round_eq hr]; exact r.isLt
  have hr' : (⟨s.round.val, hlt⟩ : Fin 16) = r := Fin.ext (val_of_round_eq hr)
  unfold exec execStep
  rw [if_neg (by simp [hk]), dif_pos hlt, hr']
  rfl

theorem exec_rdsk_valid {s : State} {i : BankIdx} (h : entryValid s i = true) :
    exec (.rdsk i) s = .next (driveSko (readEntry s i) i s) := by
  simp only [exec, execRdsk, h, if_true]

theorem exec_rdsk_unwritten {s : State} {i : BankIdx} (h : entryValid s i = false) :
    exec (.rdsk i) s = .next (raiseFault .skUnwritten s) := by
  simp [exec, execRdsk, h]

/-- The state GEN leaves, by its own loop. -/
def afterGen (s : State) : State :=
  let a := genLoop { c := startC s.pins.keyIn, d := startD s.pins.keyIn, sk := s.sk }
  driveSko a.sk[15] 15#4 { loadHalves a.c a.d s with sk := a.sk, round := 16, valid := 0xFFFF#16 }

theorem exec_gen (s : State) : exec .gen s = .next (afterGen s) := rfl

/-! ## afterRound, field by field -/

@[simp] theorem afterRound_c (s : State) (r : Fin 16) : (afterRound s r).c = (roundF s.c s.d r).c := rfl
@[simp] theorem afterRound_d (s : State) (r : Fin 16) : (afterRound s r).d = (roundF s.c s.d r).d := rfl
@[simp] theorem afterRound_keyed (s : State) (r : Fin 16) : (afterRound s r).keyed = s.keyed := rfl
@[simp] theorem afterRound_round (s : State) (r : Fin 16) : (afterRound s r).round = r.succ := rfl
@[simp] theorem afterRound_sk (s : State) (r : Fin 16) : (afterRound s r).sk = s.sk.set r.val (roundF s.c s.d r).subkey := rfl
@[simp] theorem afterRound_valid (s : State) (r : Fin 16) : (afterRound s r).valid = s.valid ||| BitVec.twoPow 16 r.val := rfl
@[simp] theorem afterRound_fault (s : State) (r : Fin 16) : (afterRound s r).fault = s.fault := rfl
@[simp] theorem afterRound_ecode (s : State) (r : Fin 16) : (afterRound s r).ecode = s.ecode := rfl
@[simp] theorem afterRound_sko (s : State) (r : Fin 16) : (afterRound s r).sko = (roundF s.c s.d r).subkey := rfl
@[simp] theorem afterRound_skoIdx (s : State) (r : Fin 16) : (afterRound s r).skoIdx = BitVec.ofNat 4 r.val := rfl
@[simp] theorem afterRound_skoValid (s : State) (r : Fin 16) : (afterRound s r).skoValid = true := rfl
@[simp] theorem afterRound_inFlight (s : State) (r : Fin 16) : (afterRound s r).inFlight = s.inFlight := rfl
@[simp] theorem afterRound_pins (s : State) (r : Fin 16) : (afterRound s r).pins = s.pins := rfl
@[simp] theorem afterRound_holding (s : State) (r : Fin 16) : (afterRound s r).holding = s.holding := rfl
@[simp] theorem afterRound_host (s : State) (r : Fin 16) : (afterRound s r).host = s.host := rfl

/-! ## Everything a command can do -/

/-- The next states of each command, with the condition of each. -/
inductive Effect (s : State) : Instr → State → Prop
  | nop : Effect s .nop s
  | ldkey :
    Effect s .ldkey { loadHalves (startC s.pins.keyIn) (startD s.pins.keyIn) s with round := 0, valid := 0#16, skoValid := false }
  | stepUnkeyed (hk : s.keyed = false) : Effect s .step (raiseFault .noKey s)
  | stepOverrun (hk : s.keyed = true) (hr : s.round = 16) : Effect s .step (raiseFault .roundOverrun s)
  | stepRound (r : Fin 16) (hk : s.keyed = true) (hr : s.round = r.castSucc) : Effect s .step (afterRound s r)
  | gen : Effect s .gen (afterGen s)
  | rdskUnwritten (i : BankIdx) (hv : entryValid s i = false) : Effect s (.rdsk i) (raiseFault .skUnwritten s)
  | rdskValid (i : BankIdx) (hv : entryValid s i = true) : Effect s (.rdsk i) (driveSko (readEntry s i) i s)

/-- Every command answers a next state, one of its effects. -/
theorem exec_effect (i : Instr) (s : State) : ∃ t, exec i s = .next t ∧ Effect s i t := by
  cases i with
  | nop => exact ⟨_, exec_nop s, .nop⟩
  | ldkey => exact ⟨_, exec_ldkey s, .ldkey⟩
  | gen => exact ⟨_, exec_gen s, .gen⟩
  | step =>
    cases hk : s.keyed
    · exact ⟨_, exec_step_unkeyed hk, .stepUnkeyed hk⟩
    · rcases round_cases s with hr | ⟨r, hr⟩
      · exact ⟨_, exec_step_overrun hk hr, .stepOverrun hk hr⟩
      · exact ⟨_, exec_step_round hk hr, .stepRound r hk hr⟩
  | rdsk i =>
    cases hv : entryValid s i
    · exact ⟨_, exec_rdsk_unwritten hv, .rdskUnwritten i hv⟩
    · exact ⟨_, exec_rdsk_valid hv, .rdskValid i hv⟩

/-- The inversion of `exec`: `cases exec_cases h` gives the effects of R91 to R95, and no other. -/
theorem exec_cases {i : Instr} {s t : State} (h : exec i s = .next t) : Effect s i t := by
  obtain ⟨u, hu, he⟩ := exec_effect i s
  rw [hu] at h
  cases h
  exact he

/-- A command leaves the ports, the offer held, the host's list and the command in progress. -/
theorem exec_keeps_ports {i : Instr} {s t : State} (h : exec i s = .next t) :
    t.pins = s.pins ∧ t.holding = s.holding ∧ t.host = s.host ∧ t.inFlight = s.inFlight := by
  cases exec_cases h <;> exact ⟨rfl, rfl, rfl, rfl⟩

end Sys2Proof.Machine
end

