-- ==== Sys2Proof/Laws/Datapath.lean ====
section
/-! SUPPORT. What each network does, bit by bit, in source positions (00_scope.md R11). Every claim about the datapath goes
through these and `eq_of_getBit_eq`. -/

namespace Sys2Proof.Machine

/-- Two buses are equal when they agree at every source position. -/
theorem eq_of_getBit_eq {w : Nat} {x y : BitVec w} (h : ∀ p, p < w → getBit x p = getBit y p) : x = y :=
  BitVec.eq_of_getMsbD_eq (fun p hp => h p hp)

theorem getBit_of_ge {w : Nat} (v : BitVec w) {p : Nat} (h : w ≤ p) : getBit v p = false := by
  simp [getBit, BitVec.getMsbD, Nat.not_lt.mpr h]

/-- R67 in LSB-0 numbering. -/
theorem getBit_eq_getLsbD {w : Nat} (v : BitVec w) {p : Nat} (h : p < w) : getBit v p = v.getLsbD (w - 1 - p) := by
  simp [getBit, BitVec.getMsbD, h]

theorem getLsbD_eq_getBit {w : Nat} (v : BitVec w) {i : Nat} (h : i < w) : v.getLsbD i = getBit v (w - 1 - i) := by
  rw [getBit_eq_getLsbD v (by omega)]
  congr 1
  omega

theorem getBit_not {w : Nat} (v : BitVec w) {p : Nat} (h : p < w) : getBit (~~~v) p = !getBit v p := by
  simp [getBit, h]

theorem getBit_xor {w : Nat} (x y : BitVec w) (p : Nat) : getBit (x ^^^ y) p = (getBit x p ^^ getBit y p) := by
  simp [getBit]

/-- Each wire of a bus drives its own position (R68). -/
theorem getBit_wires (w : Nat) (f : Nat → Bool) (p : Nat) : getBit (wires w f) p = (decide (p < w) && f p) := by
  induction w with
  | zero => simp [getBit, BitVec.getMsbD]
  | succ w ih =>
    unfold getBit at ih ⊢
    rw [wires, BitVec.getMsbD_concat, ih]
    by_cases h : p < w
    · have : p < w + 1 := by omega
      simp [h, this]
    · by_cases h' : p = w
      · simp [h']
      · have : ¬p < w + 1 := by omega
        simp [h, h', this]

/-- A permutation network copies bits (R13). -/
theorem getBit_permute {w : Nat} (n : Nat) (table : List Nat) (v : BitVec w) (p : Nat) :
    getBit (permute n table v) p = (decide (p < n) && getBit v (table.getD p 0 - 1)) := getBit_wires _ _ _

/-- R72: C takes positions 0 to 27. -/
theorem getBit_splitC (v : Bits56) {p : Nat} (h : p < 28) : getBit (splitC v) p = getBit v p := by
  rw [getBit_eq_getLsbD _ h, getBit_eq_getLsbD _ (by omega), splitC, BitVec.getLsbD_extractLsb']
  simp only [show 28 - 1 - p < 28 by omega, decide_true, Bool.true_and]
  congr 1
  omega

/-- R72: D takes positions 28 to 55. -/
theorem getBit_splitD (v : Bits56) {p : Nat} (h : p < 28) : getBit (splitD v) p = getBit v (28 + p) := by
  rw [getBit_eq_getLsbD _ h, getBit_eq_getLsbD _ (by omega), splitD, BitVec.getLsbD_extractLsb']
  simp only [show 28 - 1 - p < 28 by omega, decide_true, Bool.true_and]
  congr 1
  omega

/-- R76: C' on positions 0 to 27, D' on 28 to 55. -/
theorem getBit_recomb (c d : Half) {p : Nat} (h : p < 56) :
    getBit (recomb c d) p = if p < 28 then getBit c p else getBit d (p - 28) := by
  rw [getBit_eq_getLsbD _ h, recomb, BitVec.getLsbD_append]
  by_cases hp : p < 28
  · rw [if_neg (by omega), if_pos hp, getBit_eq_getLsbD _ hp]
    congr 1
    omega
  · rw [if_pos (by omega), if_neg hp, getBit_eq_getLsbD _ (by omega)]
    congr 1
    omega

/-- The source's mask keeps every bit of a 28-bit register (R74). -/
theorem mask28_getLsbD {i : Nat} (h : i < 28) : (0x0FFFFFFF#28).getLsbD i = true := by
  rw [show (0x0FFFFFFF#28) = BitVec.allOnes 28 from rfl, BitVec.getLsbD_allOnes]
  exact decide_eq_true h

/-- R74 in source positions: `pos(ROTL28(x, s), 28, p) = pos(x, 28, (p + s) mod 28)`. -/
theorem getBit_rotl28 (x : Half) {s p : Nat} (hs : s < 28) (hp : p < 28) :
    getBit (rotl28 x s) p = getBit x ((p + s) % 28) := by
  have hm : (p + s) % 28 < 28 := Nat.mod_lt _ (by omega)
  rw [getBit_eq_getLsbD _ hp, getBit_eq_getLsbD _ hm, rotl28, BitVec.getLsbD_and, mask28_getLsbD (by omega), Bool.and_true,
    BitVec.getLsbD_or, BitVec.getLsbD_shiftLeft, BitVec.getLsbD_ushiftRight]
  by_cases h : p + s < 28
  · have e : (p + s) % 28 = p + s := Nat.mod_eq_of_lt h
    have hlt : ¬28 - 1 - p < s := by omega
    have hz : x.getLsbD (28 - s + (28 - 1 - p)) = false := BitVec.getLsbD_of_ge _ _ (by omega)
    rw [hz, e, Bool.or_false]
    simp only [show 28 - 1 - p < 28 by omega, hlt, decide_true, decide_false, Bool.not_false, Bool.true_and]
    congr 1
    omega
  · have e : (p + s) % 28 = p + s - 28 := by omega
    have hlt : 28 - 1 - p < s := by omega
    rw [e]
    simp only [hlt, decide_true, Bool.not_true, Bool.and_false, Bool.false_and, Bool.false_or]
    congr 1
    omega

end Sys2Proof.Machine
end

