-- ==== Sys2Proof/Laws/Host.lean ====
section
/-! SUPPORT. What the ports show at an edge, one lemma a case, and that no offer is lost by it. -/

namespace Sys2Proof.Machine

theorem present_nil {s : State} (hh : s.host = []) : present s = s := by simp [present, hh]

/-- With no offer held, the next entry is on the ports. -/
theorem present_fresh {s : State} {p : Pins} {rest : List Pins} (ho : s.holding = false) (hh : s.host = p :: rest) :
    present s = { drive p rest s with holding := p.cmdValid } := by
  simp [present, hh, ho]

/-- While an offer is held, another one waits. -/
theorem present_waiting {s : State} {p : Pins} {rest : List Pins} (ho : s.holding = true) (hh : s.host = p :: rest)
    (hv : p.cmdValid = true) : present s = s := by
  simp [present, hh, ho, hv]

/-- While an offer is held, an entry that offers none changes KEY_IN only. -/
theorem present_held {s : State} {p : Pins} {rest : List Pins} (ho : s.holding = true) (hh : s.host = p :: rest)
    (hv : p.cmdValid = false) : present s = drive { p with cmdValid := true, cmd := s.pins.cmd } rest s := by
  simp [present, hh, ho, hv]

/-- A fresh offer, accepted at this edge. -/
theorem takeOffer_present_fresh {s : State} {p : Pins} {rest : List Pins} (ho : s.holding = false) (hh : s.host = p :: rest) :
    takeOffer (present s) = drive p rest s := by
  rw [present_fresh ho hh]
  simp [takeOffer, drive, ho]

/-- The next states of `present`, with the condition of each. -/
inductive PresentEffect (s : State) : State → Prop
  | nothing (hh : s.host = []) : PresentEffect s s
  | waiting (p : Pins) (rest : List Pins) (ho : s.holding = true) (hh : s.host = p :: rest) (hv : p.cmdValid = true) :
    PresentEffect s s
  | held (p : Pins) (rest : List Pins) (ho : s.holding = true) (hh : s.host = p :: rest) (hv : p.cmdValid = false) :
    PresentEffect s (drive { p with cmdValid := true, cmd := s.pins.cmd } rest s)
  | fresh (p : Pins) (rest : List Pins) (ho : s.holding = false) (hh : s.host = p :: rest) :
    PresentEffect s { drive p rest s with holding := p.cmdValid }

theorem present_effect (s : State) : PresentEffect s (present s) := by
  cases hh : s.host with
  | nil => rw [present_nil hh]; exact .nothing hh
  | cons p rest =>
    cases ho : s.holding
    · rw [present_fresh ho hh]; exact .fresh p rest ho hh
    · cases hv : p.cmdValid
      · rw [present_held ho hh hv]; exact .held p rest ho hh hv
      · rw [present_waiting ho hh hv]; exact .waiting p rest ho hh hv

/-- An edge changes the host's side only. -/
theorem present_eq (s : State) :
    present s = { s with pins := (present s).pins, holding := (present s).holding, host := (present s).host } := by
  have he := present_effect s
  generalize present s = u at he
  cases he <;> rfl

@[simp] theorem present_fault (s : State) : (present s).fault = s.fault := by rw [present_eq]
@[simp] theorem present_inFlight (s : State) : (present s).inFlight = s.inFlight := by rw [present_eq]

/-- What is left of the host's list is part of it. -/
theorem mem_present_host {s : State} {q : Pins} (hq : q ∈ (present s).host) : q ∈ s.host := by
  have he := present_effect s
  generalize present s = u at hq he
  cases he with
  | nothing => exact hq
  | waiting => exact hq
  | held p rest ho hh => rw [hh]; exact List.mem_cons_of_mem p hq
  | fresh p rest ho hh => rw [hh]; exact List.mem_cons_of_mem p hq

/-- No offer is lost at an edge, and none is made twice. -/
theorem offersToCome_present (s : State) : offersToCome (present s) = offersToCome s := by
  have he := present_effect s
  generalize present s = u at he
  cases he with
  | nothing => rfl
  | waiting => rfl
  | held p rest ho hh hv => simp [offersToCome, ho, hh, hv]
  | fresh p rest ho hh => cases hv : p.cmdValid <;> simp [offersToCome, ho, hh, hv]

end Sys2Proof.Machine
end

