-- ==== Sys2Proof/Laws/PerInstr.lean ====
section
/-! SUPPORT. Statements made of each instruction as syntax, one lemma for each constructor of `Instr` (LAWS.json). -/

namespace Sys2Proof.Laws.OpcodeRow

/-- MASK of the instruction's opcode-table row (30_encoding.md R66). -/
def mask : Instr → CmdWord
  | .nop => 0xFF#8
  | .ldkey => 0xFF#8
  | .step => 0xFF#8
  | .gen => 0xFF#8
  | .rdsk _ => 0xF0#8

/-- MATCH of the instruction's opcode-table row (30_encoding.md R66). -/
def value : Instr → CmdWord
  | .nop => 0x00#8
  | .ldkey => 0x10#8
  | .step => 0x20#8
  | .gen => 0x30#8
  | .rdsk _ => 0x40#8

/-- The instruction's word is one its row selects, and decoding the word gives the instruction back, from the word itself and
from the opcode table's numbering of it. -/
def Statement (i : Instr) : Prop :=
  encode i &&& mask i = value i ∧ decode (encode i) = some i ∧ decodeTableWord 8 (encode i).toNat = some i

theorem nop : Statement .nop := by unfold Statement; decide
theorem ldkey : Statement .ldkey := by unfold Statement; decide
theorem step : Statement .step := by unfold Statement; decide
theorem gen : Statement .gen := by unfold Statement; decide

theorem rdsk (i : BankIdx) : Statement (.rdsk i) := by
  have all : ∀ i : BankIdx, encode (.rdsk i) &&& 0xF0#8 = 0x40#8 ∧ decode (encode (.rdsk i)) = some (.rdsk i) ∧
      decodeTableWord 8 (encode (.rdsk i)).toNat = some (.rdsk i) := by decide
  exact all i

end Sys2Proof.Laws.OpcodeRow
end

