-- ==== Sys2Proof/Laws/Schedule.lean ====
section
/-! SUPPORT. One round of the schedule function KS, and one turn of GEN's loop, on the halves carried into it. -/

namespace Sys2Proof.Machine

theorem carried_succ (k : Key) {n : Nat} (hn : n < 16) :
    carried k (n + 1) = bshift (carried k n).1 (carried k n).2 (shiftAmount ⟨n, hn⟩) := by
  rw [carried, dif_pos hn]

/-- ROUNDF on the halves carried into round `n` gives the halves carried into the next, and KS's subkey of that round. -/
theorem roundF_carried (k : Key) {n : Nat} (hn : n < 16) :
    roundF (carried k n).1 (carried k n).2 ⟨n, hn⟩ =
      { c := (carried k (n + 1)).1, d := (carried k (n + 1)).2, subkey := ks k ⟨n, hn⟩ } := by
  rw [carried_succ k hn]
  rfl

/-- One turn of GEN's loop, on the halves carried into round `n`. -/
theorem genRound_carried (k : Key) {n : Nat} (hn : n < 16) (sk : Vector Subkey 16) :
    genRound { c := (carried k n).1, d := (carried k n).2, sk := sk } ⟨n, hn⟩ =
      { c := (carried k (n + 1)).1, d := (carried k (n + 1)).2, sk := sk.set n (ks k ⟨n, hn⟩) } := by
  rw [carried_succ k hn]
  rfl

end Sys2Proof.Machine
end

