-- ==== Sys2Proof/Laws/Step.lean ====
section
/-! SUPPORT. The frame, the step and the clock edge, one lemma a case, and their inversions `step_cases` and `tick_cases`:
everything a step and a clock edge can do, said once. -/

namespace Sys2Proof.Machine

/-! ## The frame (R90) -/

theorem accept_dropped {s : State} (hf : s.fault = true) : accept s = .next s := by simp [accept, hf]

theorem accept_reserved {s : State} (hf : s.fault = false) (hd : decode s.pins.cmd = none) :
    accept s = .next (raiseFault .illegalCmd s) := by simp [accept, hf, hd]

theorem accept_command {s : State} {i : Instr} (hf : s.fault = false) (hd : decode s.pins.cmd = some i) :
    accept s = exec i s := by simp [accept, hf, hd]

/-- Every accepted command answers a next state. -/
theorem accept_next (s : State) : ∃ t, accept s = .next t := by
  cases hf : s.fault
  · cases hd : decode s.pins.cmd with
    | none => exact ⟨_, accept_reserved hf hd⟩
    | some i =>
      obtain ⟨t, ht, -⟩ := exec_effect i s
      exact ⟨t, (accept_command hf hd).trans ht⟩
  · exact ⟨_, accept_dropped hf⟩

/-- The inversion of `accept`: dropped, reserved, or an effect of the decoded command. -/
theorem accept_cases {s t : State} (h : accept s = .next t) :
    (s.fault = true ∧ t = s) ∨
    (s.fault = false ∧ decode s.pins.cmd = none ∧ t = raiseFault .illegalCmd s) ∨
    ∃ i, s.fault = false ∧ decode s.pins.cmd = some i ∧ exec i s = .next t := by
  cases hf : s.fault
  · cases hd : decode s.pins.cmd with
    | none =>
      rw [accept_reserved hf hd] at h
      cases h
      exact .inr (.inl ⟨rfl, rfl, rfl⟩)
    | some i => exact .inr (.inr ⟨i, rfl, rfl, (accept_command hf hd).symm.trans h⟩)
  · rw [accept_dropped hf] at h
    cases h
    exact .inl ⟨rfl, rfl⟩

theorem accept_keeps_ports {s t : State} (h : accept s = .next t) :
    t.pins = s.pins ∧ t.holding = s.holding ∧ t.host = s.host ∧ t.inFlight = s.inFlight := by
  rcases accept_cases h with ⟨-, rfl⟩ | ⟨-, -, rfl⟩ | ⟨i, -, -, hx⟩
  · exact ⟨rfl, rfl, rfl, rfl⟩
  · exact ⟨rfl, rfl, rfl, rfl⟩
  · exact exec_keeps_ports hx

/-- The state a command in progress is completed in: its sampled ports, nothing in progress. -/
def atCompletion (f : InFlight) (s : State) : State := { s with pins := f.sampled, inFlight := none }

/-- A completion is the frame on the sampled ports, after which the ports show what they showed. -/
theorem complete_of_accept {f : InFlight} {s t : State} (h : accept (atCompletion f s) = .next t) :
    complete f s = .next { t with pins := s.pins } := by
  unfold complete
  unfold atCompletion at h
  rw [h]
  rfl

/-- RST is not at the head of the host's list: the host does not assert it at this edge. -/
def NoRstNow (s : State) : Prop := ∀ p rest, s.host = p :: rest → p.rst = false

theorem noRstNow_nil {s : State} (hh : s.host = []) : NoRstNow s := by
  intro p rest h
  rw [hh] at h
  cases h

theorem noRstNow_cons {s : State} {p : Pins} {rest : List Pins} (hh : s.host = p :: rest) (hr : p.rst = false) :
    NoRstNow s := by
  intro q rest' h
  rw [hh] at h
  cases h
  exact hr

/-- RST is asserted at this edge, or it is not. -/
theorem rst_cases (s : State) : NoRstNow s ∨ ∃ p rest, s.host = p :: rest ∧ p.rst = true := by
  cases hh : s.host with
  | nil => exact .inl (noRstNow_nil hh)
  | cons p rest =>
    cases hr : p.rst
    · exact .inl (noRstNow_cons hh hr)
    · exact .inr ⟨p, rest, rfl, hr⟩

/-! ## The step (R50), one lemma a case -/

theorem step_reset {s : State} {p : Pins} {rest : List Pins} (hh : s.host = p :: rest) (hr : p.rst = true) :
    step s = .next (resetEvent p rest) := by
  simp [step, transact, hh, hr]

theorem step_exchange {s : State} (hn : NoRstNow s) : step s = exchange s := by
  unfold step transact
  split
  · rfl
  · rw [if_neg (by simp [hn _ _ ‹_›])]

theorem step_busy {s : State} {f : InFlight} (hi : s.inFlight = some f) (hn : NoRstNow s) : step s = complete f s := by
  simp [step_exchange hn, exchange, hi]

theorem step_accepts {s : State} (hi : s.inFlight = none) (hn : NoRstNow s) (ho : (present s).holding = true) :
    step s = accept (takeOffer (present s)) := by
  simp [step_exchange hn, exchange, hi, ho]

theorem step_idle {s : State} (hi : s.inFlight = none) (hn : NoRstNow s) (ho : (present s).holding = false) :
    step s = .next (present s) := by
  simp [step_exchange hn, exchange, hi, ho]

/-- A fresh offer. -/
theorem step_offer {s : State} {p : Pins} {rest : List Pins} (hi : s.inFlight = none) (ho : s.holding = false)
    (hh : s.host = p :: rest) (hr : p.rst = false) (hv : p.cmdValid = true) : step s = accept (drive p rest s) := by
  rw [step_accepts hi (noRstNow_cons hh hr) (by rw [present_fresh ho hh]; exact hv), takeOffer_present_fresh ho hh]

/-- The next states of a step, with the condition of each. -/
inductive StepEffect (s : State) : State → Prop
  | reset (p : Pins) (rest : List Pins) (hh : s.host = p :: rest) (hr : p.rst = true) : StepEffect s (resetEvent p rest)
  | completed (f : InFlight) (t : State) (hi : s.inFlight = some f) (hn : NoRstNow s)
      (ha : accept (atCompletion f s) = .next t) : StepEffect s { t with pins := s.pins }
  | accepted (t : State) (hi : s.inFlight = none) (hn : NoRstNow s) (ho : (present s).holding = true)
      (ha : accept (takeOffer (present s)) = .next t) : StepEffect s t
  | noOffer (hi : s.inFlight = none) (hn : NoRstNow s) (ho : (present s).holding = false) : StepEffect s (present s)

/-- Every step answers a next state, one of its effects. -/
theorem step_effect (s : State) : ∃ t, step s = .next t ∧ StepEffect s t := by
  rcases rst_cases s with hn | ⟨p, rest, hh, hr⟩
  · cases hi : s.inFlight with
    | some f =>
      obtain ⟨t, ha⟩ := accept_next (atCompletion f s)
      exact ⟨_, (step_busy hi hn).trans (complete_of_accept ha), .completed f t hi hn ha⟩
    | none =>
      cases ho : (present s).holding
      · exact ⟨_, step_idle hi hn ho, .noOffer hi hn ho⟩
      · obtain ⟨t, ha⟩ := accept_next (takeOffer (present s))
        exact ⟨t, (step_accepts hi hn ho).trans ha, .accepted t hi hn ho ha⟩
  · exact ⟨_, step_reset hh hr, .reset p rest hh hr⟩

/-- The inversion of `step`. -/
theorem step_cases {s t : State} (h : step s = .next t) : StepEffect s t := by
  obtain ⟨u, hu, he⟩ := step_effect s
  rw [hu] at h
  cases h
  exact he

/-! ## The clock edge (R126), one lemma a case -/

theorem tick_reset {s : State} {p : Pins} {rest : List Pins} (hh : s.host = p :: rest) (hr : p.rst = true) :
    tick s = .next (resetEvent p rest) := by
  simp [tick, hh, hr]

theorem tick_edge {s : State} (hn : NoRstNow s) : tick s = edge s := by
  unfold tick
  split
  · rfl
  · rw [if_neg (by simp [hn _ _ ‹_›])]

theorem tick_busy {s : State} {f : InFlight} (hi : s.inFlight = some f) (hn : NoRstNow s) :
    tick s = advance f (present s) := by
  simp [tick_edge hn, edge, hi]

theorem tick_begins {s : State} (hi : s.inFlight = none) (hn : NoRstNow s) (ho : (present s).holding = true) :
    tick s = .next (begin (takeOffer (present s))) := by
  simp [tick_edge hn, edge, hi, ho]

theorem tick_idle {s : State} (hi : s.inFlight = none) (hn : NoRstNow s) (ho : (present s).holding = false) :
    tick s = .next (present s) := by
  simp [tick_edge hn, edge, hi, ho]

theorem advance_last {f : InFlight} {s t : State} (hc : f.cyclesLeft ≤ 1) (h : accept (atCompletion f s) = .next t) :
    advance f s = .next { t with pins := s.pins } := by
  unfold advance
  rw [if_pos hc, complete_of_accept h]

theorem advance_count {f : InFlight} {s : State} (hc : 2 ≤ f.cyclesLeft) :
    advance f s = .next { s with inFlight := some { f with cyclesLeft := f.cyclesLeft - 1 } } := by
  unfold advance
  rw [if_neg (by omega)]

/-- The next states of a clock edge, with the condition of each. -/
inductive TickEffect (s : State) : State → Prop
  | reset (p : Pins) (rest : List Pins) (hh : s.host = p :: rest) (hr : p.rst = true) : TickEffect s (resetEvent p rest)
  | completed (f : InFlight) (t : State) (hi : s.inFlight = some f) (hn : NoRstNow s) (hc : f.cyclesLeft ≤ 1)
      (ha : accept (atCompletion f (present s)) = .next t) : TickEffect s { t with pins := (present s).pins }
  | counted (f : InFlight) (hi : s.inFlight = some f) (hn : NoRstNow s) (hc : 2 ≤ f.cyclesLeft) :
      TickEffect s { present s with inFlight := some { f with cyclesLeft := f.cyclesLeft - 1 } }
  | begun (hi : s.inFlight = none) (hn : NoRstNow s) (ho : (present s).holding = true) :
      TickEffect s (begin (takeOffer (present s)))
  | noOffer (hi : s.inFlight = none) (hn : NoRstNow s) (ho : (present s).holding = false) : TickEffect s (present s)

/-- Every clock edge answers a next state, one of its effects. -/
theorem tick_effect (s : State) : ∃ t, tick s = .next t ∧ TickEffect s t := by
  rcases rst_cases s with hn | ⟨p, rest, hh, hr⟩
  · cases hi : s.inFlight with
    | some f =>
      by_cases hc : f.cyclesLeft ≤ 1
      · obtain ⟨t, ha⟩ := accept_next (atCompletion f (present s))
        exact ⟨_, (tick_busy hi hn).trans (advance_last hc ha), .completed f t hi hn hc ha⟩
      · exact ⟨_, (tick_busy hi hn).trans (advance_count (by omega)), .counted f hi hn (by omega)⟩
    | none =>
      cases ho : (present s).holding
      · exact ⟨_, tick_idle hi hn ho, .noOffer hi hn ho⟩
      · exact ⟨_, tick_begins hi hn ho, .begun hi hn ho⟩
  · exact ⟨_, tick_reset hh hr, .reset p rest hh hr⟩

/-- The inversion of `tick`. -/
theorem tick_cases {s t : State} (h : tick s = .next t) : TickEffect s t := by
  obtain ⟨u, hu, he⟩ := tick_effect s
  rw [hu] at h
  cases h
  exact he

end Sys2Proof.Machine
end

