-- ==== Sys2Proof/Tests/Slice0.lean ====
section
/-! SUPPORT. Tests. Every expected value is printed in spec/, at the place each section names: a vector V<n> or T<n> of
95_test_vectors.md, or an encoding of 30_encoding.md. The witnesses at the end meet the hypotheses of each statement. -/

namespace Sys2Proof.Tests

open Sys2Proof Sys2Proof.Machine

/-! ## Helpers -/

/-- The textbook key of V1. -/
def textbook : Key := 0x133457799BBCDFF1#64

/-- The key "abcdefgh" of V4. -/
def abcdefgh : Key := 0x6162636465666768#64

/-- The subkeys of the textbook key, copied from V3. -/
def textbookBank : Vector Subkey 16 :=
  #v[0x1B02EFFC7072#48, 0x79AED9DBC9E5#48, 0x55FC8A42CF99#48, 0x72ADD6DB351D#48, 0x7CEC07EB53A8#48, 0x63A53E507B2F#48,
    0xEC84B7F618BC#48, 0xF78A3AC13BFB#48, 0xE0DBEBEDE781#48, 0xB1F347BA464F#48, 0x215FD3DED386#48, 0x7571F59467E9#48,
    0x97C5D1FABA41#48, 0x5F43B7F2E73A#48, 0xBF918D3D3F0A#48, 0xCB3D8B0E17F5#48]

/-- An engine in the middle of a schedule: ROUND, C and D, VALID, with the textbook bank. -/
def keyedAt (round : Fin 17) (c d : Half) (valid : BitVec 16) : State :=
  { State.reset with c := c, d := d, keyed := true, round := round, valid := valid, sk := textbookBank }

/-- After LDKEY of the textbook key (V2). -/
def atRound0 : State := keyedAt 0 0xF0CCAAF#28 0x556678F#28 0x0000#16

/-- Before the STEP of round 8 (V3, T5). -/
def atRound8 : State := keyedAt 8 0x2ABFC33#28 0x9E3D559#28 0x00FF#16

/-- Before the last STEP (V3, T6). -/
def atRound15 : State := keyedAt 15 0xF866557#28 0xAAB33C7#28 0x7FFF#16

/-- After GEN of the textbook key (T7). -/
def atEnd : State :=
  { keyedAt 16 0xF0CCAAF#28 0x556678F#28 0xFFFF#16 with sko := 0xCB3D8B0E17F5#48, skoIdx := 15#4, skoValid := true }

/-- `s` with the host offering word `w` with key `k`. -/
def offering (w : CmdWord) (k : Key) (s : State) : State := { s with pins := offer w k }

/-- `s` with LDKEY of the textbook key in progress, `n` cycles left. -/
def busyFor (n : Nat) (s : State) : State :=
  { s with inFlight := some { sampled := offer 0x10#8 textbook, cyclesLeft := n } }

/-- `s` with GEN of the textbook key offered and held. -/
def heldBehind (s : State) : State := { s with pins := offer 0x30#8 textbook, holding := true }

/-- The result is a next state that meets `p`. -/
def nextMeets (p : State → Bool) : Result → Bool
  | .next t => p t
  | .fault _ => false
  | .refused _ => false

/-! ## Decoding, from the bits of each row of R58 -/

theorem test_decode_nop : decode 0b00000000#8 = some .nop := by decide
theorem test_decode_ldkey : decode 0b00010000#8 = some .ldkey := by decide
theorem test_decode_step : decode 0b00100000#8 = some .step := by decide
theorem test_decode_gen : decode 0b00110000#8 = some .gen := by decide
theorem test_decode_rdsk_first_and_last :
    decode 0b01000000#8 = some (.rdsk 0) ∧ decode 0b01001111#8 = some (.rdsk 15) := by decide

/-- V15's spot checks, and the neighbours of each class. -/
theorem test_decode_spot_checks :
    decode 0x4A#8 = some (.rdsk 10) ∧ decode 0x3F#8 = none ∧ decode 0x80#8 = none ∧ decode 0x0F#8 = none ∧
    decode 0x01#8 = none ∧ decode 0x11#8 = none ∧ decode 0x21#8 = none ∧ decode 0x31#8 = none ∧ decode 0x50#8 = none ∧
    decode 0xFF#8 = none := by decide

/-- The words of R62's examples. -/
theorem test_encode_words :
    encode .nop = 0x00#8 ∧ encode .ldkey = 0x10#8 ∧ encode .step = 0x20#8 ∧ encode .gen = 0x30#8 ∧
    encode (.rdsk 0) = 0x40#8 ∧ encode (.rdsk 15) = 0x4F#8 := by decide

/-- A number of another length is no command. -/
theorem test_table_word_length :
    decodeTableWord 8 0x4A = some (.rdsk 10) ∧ decodeTableWord 16 0x10 = none ∧ decodeTableWord 8 0x110 = none := by decide

/-- The first step after reset runs the word placed: T7's STATUS for GEN with KEY_IN = 0, T11 for STEP. -/
theorem test_first_step_from_reset :
    nextMeets (fun t => status t == 0xFFFF0861#32) (step (State.reset.withFetchWord 8 0x30)) = true ∧
    nextMeets (fun t => status t == 0x00000280#32) (step (State.reset.withFetchWord 8 0x20)) = true := by decide +kernel

/-! ## Well-formedness: one ill-formed line for each check -/

theorem test_ldkey_key_of_17_digits_refused : (AsmLine.ldkey 0x10000000000000000).wellFormed = false := by decide
theorem test_gen_key_of_17_digits_refused : (AsmLine.gen 0x10000000000000000).wellFormed = false := by decide
theorem test_sched_key_of_17_digits_refused : (AsmLine.sched 0x10000000000000000).wellFormed = false := by decide
theorem test_rdsk_16_refused : (AsmLine.rdsk 16).wellFormed = false := by decide
theorem test_word_of_9_bits_refused : (AsmLine.word 256).wellFormed = false := by decide
theorem test_stepn_0_refused : (AsmLine.stepn 0).wellFormed = false := by decide
theorem test_stepn_17_refused : (AsmLine.stepn 17).wellFormed = false := by decide
theorem test_program_with_one_bad_line_refused : programWellFormed [.nop, .rdsk 16, .step] = false := by decide

theorem test_boundary_lines_accepted :
    programWellFormed [.nop, .ldkey 0, .gen 0xFFFFFFFFFFFFFFFF, .sched 1, .step, .stepn 1, .stepn 16, .rdall, .rdsk 0, .rdsk 15,
      .word 0, .word 255] = true := by decide

/-! ## The datapath (V2 to V13) -/

/-- V5. -/
theorem test_bit_accessors :
    getBit textbook 0 = false ∧ getBit textbook 3 = true ∧ getBit textbook 8 = false ∧ getBit textbook 63 = true ∧
    setBit textbook 0 true = 0x933457799BBCDFF1#64 ∧ setBit textbook 7 false = 0x123457799BBCDFF1#64 ∧
    setBit textbook 63 false = 0x133457799BBCDFF0#64 := by decide +kernel

/-- V2 and V6. -/
theorem test_pc1 :
    pc1Net textbook = 0xF0CCAAF556678F#56 ∧ pc1Net 0x8000000000000000#64 = 0x01000000000000#56 ∧
    pc1Net 0x1000000000000000#64 = 0x00000000000001#56 ∧ pc1Net 0x0200000000000000#64 = 0x00000000100000#56 ∧
    pc1Net 0x0000001000000000#64 = 0x00000000000008#56 ∧ pc1Net 0x0000000000000080#64 = 0x80000000000000#56 ∧
    pc1Net 0x0100000000000001#64 = 0#56 := by decide +kernel

/-- V7. -/
theorem test_rotl28 :
    rotl28 0x8000000#28 1 = 0x0000001#28 ∧ rotl28 0x6000000#28 1 = 0xC000000#28 ∧ rotl28 0x4000000#28 2 = 0x0000001#28 ∧
    rotl28 0xF0CCAAF#28 1 = 0xE19955F#28 ∧ rotl28 0x556678F#28 1 = 0xAACCF1E#28 ∧
    rotr28 0xE19955F#28 1 = 0xF0CCAAF#28 := by decide +kernel

/-- V9. -/
theorem test_pc2 :
    pc2Net 0x80000000000000#56 = 0x080000000000#48 ∧ pc2Net 0x00800000000000#56 = 0#48 ∧
    pc2Net 0x00040000000000#56 = 0x800000000000#48 ∧ pc2Net 0x00000010000000#56 = 0x010000000000#48 ∧
    pc2Net 0x00000008000000#56 = 0x000000000002#48 ∧ pc2Net 0x00000000000004#56 = 0#48 ∧
    pc2Net 0x00000000000001#56 = 0x000000000100#48 := by decide +kernel

/-- V10. -/
theorem test_bytes_of_a_subkey :
    (List.range 6).map (byteAt (pack 0xCB3D8B0E17F5#48)) = [0xCB#8, 0x3D#8, 0x8B#8, 0x0E#8, 0x17#8, 0xF5#8] := by decide +kernel

/-- V4: rounds 0, 8 and 15 of the key "abcdefgh". -/
theorem test_schedule_of_abcdefgh :
    ks abcdefgh 0 = 0xE0BE66132A82#48 ∧ ks abcdefgh 8 = 0x1F49D94A9840#48 ∧ ks abcdefgh 15 = 0xF0BE26A34280#48 := by
  decide +kernel

/-- V13, and V1's check of the byte order. -/
theorem test_schedules_of_other_keys :
    ks 0x8000000000000000#64 0 = 0x000010000000#48 ∧ ks 0x8000000000000000#64 1 = 0x004000000000#48 ∧
    ks 0x0123456789ABCDEF#64 15 = 0xCA3D03B87032#48 ∧ ks 0x0E0E0E0E1F1F1F1F#64 1 = 0x100880BF7FBF#48 ∧
    ks 0x1F1F1F1F0E0E0E0E#64 15 = 0x000000FFFFFF#48 ∧ ks 0xF1DFBC9B79573413#64 0 = 0xF4FD98DE15D9#48 := by decide +kernel

/-! ## The commands (V14) -/

/-- T1. -/
theorem test_nop_after_reset : nextMeets (fun t => status t == 0x00000000#32) (exec .nop State.reset) = true := by decide

/-- T9, over a schedule that was complete. -/
theorem test_ldkey_discards_the_schedule :
    nextMeets (fun t => t.c == 0x00FFFF0#28 && t.d == 0x6678800#28 && status t == 0x00000001#32 && visibleSubkey t == none)
      (exec .ldkey (offering 0x10#8 abcdefgh atEnd)) = true := by decide +kernel

/-- T2. -/
theorem test_ldkey_after_reset :
    nextMeets (fun t => t.c == 0xF0CCAAF#28 && t.d == 0x556678F#28 && t.round == 0 && status t == 0x00000001#32)
      (exec .ldkey (offering 0x10#8 textbook State.reset)) = true := by decide +kernel

/-- T5: round 8 rotates by one position. -/
theorem test_step_round_8 :
    nextMeets (fun t => t.c == 0x557F866#28 && t.d == 0x3C7AAB3#28 && t.sko == 0xE0DBEBEDE781#48 && t.skoIdx == 8#4 &&
      status t == 0x01FF0813#32) (exec .step atRound8) = true := by decide +kernel

/-- T6: the last round gives the halves of the split back. -/
theorem test_step_round_15 :
    nextMeets (fun t => t.c == 0xF0CCAAF#28 && t.d == 0x556678F#28 && t.sk[15] == 0xCB3D8B0E17F5#48 && status t == 0xFFFF0861#32)
      (exec .step atRound15) = true := by decide +kernel

/-- T7. -/
theorem test_gen_after_reset :
    nextMeets (fun t => t.c == 0xF0CCAAF#28 && t.d == 0x556678F#28 && t.sk == textbookBank && t.skoIdx == 15#4 &&
      status t == 0xFFFF0861#32) (exec .gen (offering 0x30#8 textbook State.reset)) = true := by decide +kernel

/-- P6: a second GEN replaces the schedule. -/
theorem test_gen_again :
    nextMeets (fun t => t.c == 0#28 && t.sk == Vector.replicate 16 0#48 && t.sko == 0#48 && status t == 0xFFFF0861#32)
      (exec .gen (offering 0x30#8 0#64 atEnd)) = true := by decide +kernel

/-- T8. -/
theorem test_rdsk_7 :
    nextMeets (fun t => t.sko == 0xF78A3AC13BFB#48 && t.skoIdx == 7#4 && t.round == 16 && status t == 0xFFFF0861#32)
      (exec (.rdsk 7) atEnd) = true := by decide +kernel

/-- T13. -/
theorem test_rdsk_unwritten :
    nextMeets (fun t => status t == 0x00000480#32 && visibleSubkey t == none) (exec (.rdsk 0) State.reset) = true := by decide

/-- T11 and T12. -/
theorem test_step_faults :
    nextMeets (fun t => status t == 0x00000280#32) (exec .step State.reset) = true ∧
    nextMeets (fun t => status t == 0xFFFF0BE1#32 && t.sko == 0xCB3D8B0E17F5#48) (exec .step atEnd) = true := by decide +kernel

/-- T15 and T17: a reserved word faults and keeps the rest, and the LDKEY after it is dropped. -/
theorem test_reserved_word_then_dropped_command :
    nextMeets (fun t => status t == 0xFFFF09E1#32 && t.c == 0xF0CCAAF#28) (accept (offering 0x21#8 textbook atEnd)) = true ∧
    nextMeets (fun t => status t == 0xFFFF09E1#32 && t.c == 0xF0CCAAF#28)
      (accept (offering 0x10#8 abcdefgh (raiseFault .illegalCmd atEnd))) = true := by decide +kernel

/-- R120: RST clears a fault. -/
theorem test_reset_clears_a_fault :
    nextMeets (fun t => status t == 0x00000000#32 && cmdReady t)
      (step { raiseFault .noKey State.reset with host := [assertRst] }) = true := by decide

/-- R126: an offer made while a command is in progress is held, and the last cycle completes the command (T2). -/
theorem test_clock_edges_of_a_command_in_progress :
    nextMeets (fun t => !cmdReady t && status t == 0x00000000#32 && t.holding && t.pins == offer 0x20#8 0#64)
      (tick { busyFor 2 State.reset with host := [offer 0x20#8 0#64] }) = true ∧
    nextMeets (fun t => cmdReady t && status t == 0x00000001#32 && t.c == 0xF0CCAAF#28 && t.holding)
      (tick { busyFor 1 State.reset with host := [offer 0x20#8 0#64] }) = true := by decide +kernel

/-- R133: KEY_IN changes while GEN is held, and RST comes while it is held. -/
theorem test_key_and_reset_while_an_offer_is_held :
    nextMeets (fun t => t.holding && t.pins == offer 0x30#8 abcdefgh && t.host == [])
      (tick { heldBehind (busyFor 2 State.reset) with host := [{ Pins.idle with keyIn := abcdefgh }] }) = true ∧
    nextMeets (fun t => !t.holding && cmdReady t && status t == 0x00000000#32)
      (tick { heldBehind (busyFor 2 atEnd) with host := [assertRst] }) = true := by decide +kernel

/-- R125: a held GEN takes the KEY_IN of its acceptance edge, not the one of its offer (V4). -/
theorem test_held_offer_takes_the_key_at_acceptance :
    nextMeets (fun t => t.sk[0] == 0xE0BE66132A82#48 && !t.holding)
      (step { heldBehind State.reset with host := [{ Pins.idle with keyIn := abcdefgh }] }) = true := by decide +kernel

/-- R47, R54: the key is the one sampled, whatever KEY_IN shows at the completing edge (T2's C). -/
theorem test_completion_uses_the_sampled_key :
    nextMeets (fun t => t.c == 0xF0CCAAF#28 && t.pins.keyIn == abcdefgh)
      (tick { busyFor 1 State.reset with host := [{ Pins.idle with keyIn := abcdefgh }] }) = true := by decide +kernel

/-! ## Witnesses

For each statement that has hypotheses: values that meet all of them together, and for each clause a value at an end of its
range. A statement not named here has no hypothesis. -/

theorem test_witness_CommandWordsDecodeAndAllOthersAreReserved :
    ∀ w ∈ [0x01#8, 0x3F#8, 0x50#8, 0xFF#8],
      w ≠ 0x00#8 ∧ w ≠ 0x10#8 ∧ w ≠ 0x20#8 ∧ w ≠ 0x30#8 ∧ ¬(0x40 ≤ w.toNat ∧ w.toNat ≤ 0x4F) := by decide

theorem test_witness_OpcodeTableRowsSelectTheirWords :
    ∀ w ∈ [0x01#8, 0x3F#8, 0x50#8, 0xFF#8],
      w &&& 0xFF#8 ≠ 0x00#8 ∧ w &&& 0xFF#8 ≠ 0x10#8 ∧ w &&& 0xFF#8 ≠ 0x20#8 ∧ w &&& 0xFF#8 ≠ 0x30#8 ∧
        w &&& 0xF0#8 ≠ 0x40#8 := by decide

theorem test_witness_ReservedWordsRaiseIllegalCommand :
    ∀ w ∈ [0x01#8, 0x3F#8, 0x50#8, 0xFF#8],
      (offering w 0#64 State.reset).fault = false ∧ decode (offering w 0#64 State.reset).pins.cmd = none := by decide

theorem test_witness_WellFormedLinesAssembleToLegalCommands :
    ∀ line ∈ [AsmLine.nop, .ldkey 0, .ldkey 0xFFFFFFFFFFFFFFFF, .step, .gen 0xFFFFFFFFFFFFFFFF, .rdsk 0, .rdsk 15, .stepn 1,
        .stepn 16, .rdall, .sched 0xFFFFFFFFFFFFFFFF],
      line.wellFormed = true ∧ (∀ w, line ≠ .word w) ∧ expandLine 0#64 line ≠ [] := by
  intro line h
  simp only [List.mem_cons, List.not_mem_nil, or_false] at h
  rcases h with rfl | rfl | rfl | rfl | rfl | rfl | rfl | rfl | rfl | rfl | rfl <;> exact ⟨by decide, nofun, by decide⟩

/-- Positions 0 and 63 of a 64-bit bus, and another position. -/
theorem test_witness_SetBitWritesOnePositionOnly : (0 < 64 ∧ 63 < 64 ∧ 63 ≠ 0) ∧ (0 < 1) := by decide

theorem test_witness_TablesHaveTheirStatedSizesBoundsAndGaps :
    57 ∈ pc1Table ∧ 1 ∈ pc1Table ∧ 63 ∈ pc1Table ∧ 64 ∉ pc1Table ∧ 1 ∈ pc2Table ∧ 56 ∈ pc2Table ∧ 54 ∉ pc2Table ∧ 1 ∈ shiftTable ∧
      2 ∈ shiftTable := by decide

/-- Output positions 0 and 55: entries 57 and 4 (R71). -/
theorem test_witness_Pc1NetworkCopiesTheNamedKeyBits :
    (0 < 56 ∧ pc1Table.getD 0 0 = 57) ∧ (55 < 56 ∧ pc1Table.getD 55 0 = 4) := by decide

/-- Output positions 0, 23, 24 and 47, the ends of the two halves' ranges: entries 14, 2, 41 and 32 (R78). -/
theorem test_witness_Pc2NetworkCopiesTheNamedHalfBits :
    (0 < 24 ∧ pc2Table.getD 0 0 = 14) ∧ (23 < 24 ∧ pc2Table.getD 23 0 = 2) ∧ (24 ≤ 24 ∧ 24 < 48 ∧ pc2Table.getD 24 0 = 41) ∧
      (24 ≤ 47 ∧ 47 < 48 ∧ pc2Table.getD 47 0 = 32) := by decide

theorem test_witness_SplitAndRecombineAreInverse : 0 < 28 ∧ 27 < 28 := by decide

/-- Amounts and positions 0 and 27. -/
theorem test_witness_RotateLeftIsACyclicShiftOfTwentyEight : (0 ≤ 27 ∧ 27 ≤ 27) ∧ (27 + 27) % 28 = 26 := by decide

/-- Amounts 0 and 27, the ends of R87's range. -/
theorem test_witness_RotateRightUndoesRotateLeft :
    (0 ≤ 27 ∧ rotl28 0x8000000#28 0 = 0x8000000#28) ∧ (27 ≤ 27 ∧ rotl28 0x8000000#28 27 = 0x4000000#28) := by decide +kernel

theorem test_witness_BytesAreMostSignificantFirst : 0 < 64 ∧ 63 < 64 ∧ 0 < 48 ∧ 47 < 48 := by decide

theorem test_witness_HalvesNeverMix :
    atRound0.fault = false ∧ (∃ t, exec .step atRound0 = .next t) ∧ (∃ t, exec .step { atRound0 with d := 0#28 } = .next t) ∧
      ∃ t, exec .step { atRound0 with c := 0#28 } = .next t :=
  ⟨rfl, ⟨_, rfl⟩, ⟨_, rfl⟩, ⟨_, rfl⟩⟩

theorem test_witness_ScheduleHasItsClosedForm : (0 ≤ 16 ∧ cum 0 = 0) ∧ (16 ≤ 16 ∧ cum 16 = 28) := by decide

theorem test_witness_EveryNonParityKeyBitReachesTwelveToFifteenSubkeys :
    (0 < 64 ∧ 0 % 8 ≠ 7) ∧ (62 < 64 ∧ 62 % 8 ≠ 7) ∧ (7 < 64 ∧ 7 % 8 = 7) ∧ (63 < 64 ∧ 63 % 8 = 7) := by decide

theorem test_witness_NopChangesNothing :
    (offering 0x00#8 0#64 (raiseFault .noKey State.reset)).pins.cmd = 0x00#8 ∧
    ∀ w ∈ [0x01#8, 0x0F#8], (offering w 0#64 State.reset).fault = false ∧ w.extractLsb' 4 4 = 0x0#4 ∧ w.extractLsb' 0 4 ≠ 0x0#4 := by
  decide

theorem test_witness_LoadKeyStartsASchedule :
    let s := offering 0x10#8 textbook atEnd
    s.fault = false ∧ s.ecode = .noFault ∧ s.pins.keyIn = 0x133457799BBCDFF1#64 ∧ ∃ t, exec .ldkey s = .next t :=
  ⟨rfl, rfl, rfl, ⟨_, rfl⟩⟩

/-- One state for each of NO_KEY, ROUND_OVERRUN, and rounds 0 and 15. -/
theorem test_witness_StepRunsTheRoundThatRoundNames :
    (State.reset.fault = false ∧ State.reset.keyed = false) ∧
    (atEnd.fault = false ∧ atEnd.keyed = true ∧ atEnd.round = 16) ∧
    (atRound0.fault = false ∧ atRound0.ecode = .noFault ∧ atRound0.keyed = true ∧ atRound0.round = (0 : Fin 16).castSucc ∧
      atRound0.valid = 0x0000#16 ∧ atRound0.c = 0xF0CCAAF#28 ∧ atRound0.d = 0x556678F#28) ∧
    (atRound15.fault = false ∧ atRound15.keyed = true ∧ atRound15.round = (15 : Fin 16).castSucc ∧ ScheduleOf textbook atRound15 ∧
      ∃ t, exec .step atRound15 = .next t) :=
  ⟨by decide, by decide, by decide, rfl, rfl, rfl, ⟨by decide +kernel, by decide +kernel, by decide +kernel⟩, ⟨_, rfl⟩⟩

theorem test_witness_GenerateComputesTheWholeSchedule :
    let s := offering 0x30#8 textbook atRound8
    s.fault = false ∧ s.ecode = .noFault ∧ s.pins.keyIn = 0x133457799BBCDFF1#64 ∧ ∃ t, exec .gen s = .next t :=
  ⟨rfl, rfl, rfl, ⟨_, rfl⟩⟩

/-- Entries 0 and 15 readable, entry 15 unwritten before the last round, a STEP to read back, and a GEN to read from. -/
theorem test_witness_ReadSubkeyShowsTheNamedEntry :
    (atEnd.fault = false ∧ atEnd.valid.getLsbD (0#4).toNat = true ∧ atEnd.valid.getLsbD (15#4).toNat = true) ∧
    (atRound15.fault = false ∧ atRound15.valid.getLsbD (15#4).toNat = false) ∧
    (State.reset.fault = false ∧ State.reset.valid.getLsbD (0#4).toNat = false) ∧
    (atRound15.keyed = true ∧ atRound15.round = (15 : Fin 16).castSucc ∧
      nextMeets (fun t => nextMeets (fun _ => true) (exec (.rdsk 15#4) t)) (exec .step atRound15) = true) ∧
    ((offering 0x30#8 textbook atEnd).pins.keyIn = 0x133457799BBCDFF1#64 ∧
      ∃ t, exec .gen (offering 0x30#8 textbook atEnd) = .next t) := by
  exact ⟨by decide, by decide, by decide, by decide +kernel, rfl, ⟨_, rfl⟩⟩

/-- Each command with a next state that has no fault. -/
theorem test_witness_CommandsWriteOnlyTheirMarkedState :
    (atRound15.fault = false ∧ atEnd.fault = false) ∧ nextMeets (fun t => !t.fault) (exec .nop atEnd) = true ∧
    nextMeets (fun t => !t.fault) (exec .ldkey atEnd) = true ∧ nextMeets (fun t => !t.fault) (exec .step atRound0) = true ∧
    nextMeets (fun t => !t.fault) (exec .step atRound15) = true ∧ nextMeets (fun t => !t.fault) (exec .gen atEnd) = true ∧
    nextMeets (fun t => !t.fault) (exec (.rdsk 15) atEnd) = true := by decide +kernel

theorem test_witness_RoundMovesOnlyByOneByLoadOrByGenerate :
    nextMeets (fun t => t.fault) (exec .step atEnd) = true ∧ nextMeets (fun t => !t.fault) (exec .step atRound15) = true ∧
    nextMeets (fun t => !t.fault) (exec .ldkey atEnd) = true ∧ nextMeets (fun t => !t.fault) (exec .gen atRound0) = true ∧
    nextMeets (fun t => !t.fault) (exec (.rdsk 0) atEnd) = true := by decide +kernel

/-- Entry 15 appears by the STEP of round 15 and by GEN. -/
theorem test_witness_EntriesAppearOnlyInRoundOrder :
    atRound15.fault = false ∧ atRound15.valid.getLsbD 15 = false ∧
    nextMeets (fun t => t.valid.getLsbD 15) (exec .step atRound15) = true ∧
    nextMeets (fun t => t.valid.getLsbD 15) (exec .gen atRound15) = true := by decide +kernel

theorem test_witness_GenerateEqualsLoadKeyAndSixteenSteps : atRound8.fault = false ∧ (0 ≤ 16 ∧ 16 ≤ 16) := by decide

/-- Sixteen KEY_IN values for the STEPs, the first and the last two of them different from the rest. -/
theorem test_witness_SchedEndsInTheStateOfGenerate :
    atRound8.fault = false ∧ atRound8.inFlight = none ∧
      (abcdefgh :: List.replicate 13 0#64 ++ [textbook, 1#64] : List Key).length = 16 := by decide

theorem test_witness_SubkeysStreamInOrderAndReadInAnyOrder : atRound8.fault = false ∧ atRound8.inFlight = none := by decide

theorem test_witness_NewKeyDiscardsTheOldSchedule : atEnd.fault = false ∧ atEnd.skoValid = true := by decide

/-- A repeated RDSK, and STEPs at rounds 0 and 15. -/
theorem test_witness_AllCommandsButStepAreIdempotent :
    (decode (offering 0x4F#8 0#64 atEnd).pins.cmd = some (.rdsk 15) ∧ Instr.rdsk 15 ≠ .step ∧
      nextMeets (fun _ => true) (accept (offering 0x4F#8 0#64 atEnd)) = true) ∧
    ((offering 0x20#8 0#64 atRound0).fault = false ∧ (offering 0x20#8 0#64 atRound0).pins.cmd = 0x20#8 ∧ atRound0.keyed = true ∧
      atRound0.round = (0 : Fin 16).castSucc) ∧
    (atRound15.keyed = true ∧ atRound15.round = (15 : Fin 16).castSucc) := by decide +kernel

theorem test_witness_StatusShowsEveryField : 0 < 16 ∧ 15 < 16 := by decide

/-- A dropped command, and each fault raised. -/
theorem test_witness_EachFaultIsRaisedExactlyOnItsCondition :
    (raiseFault .noKey State.reset).fault = true ∧
    (atEnd.fault = false ∧ atEnd.ecode = .noFault) ∧
    nextMeets (fun t => t.ecode == .illegalCmd) (accept (offering 0x50#8 0#64 atEnd)) = true ∧
    nextMeets (fun t => t.ecode == .noKey) (accept (offering 0x20#8 0#64 State.reset)) = true ∧
    nextMeets (fun t => t.ecode == .roundOverrun) (accept (offering 0x20#8 0#64 atEnd)) = true ∧
    nextMeets (fun t => t.ecode == .skUnwritten) (accept (offering 0x4F#8 0#64 atRound15)) = true := by decide +kernel

theorem test_witness_FaultEntryWritesOnlyFaultAndCode :
    atEnd.fault = false ∧ nextMeets (fun t => t.fault) (accept (offering 0x20#8 0#64 atEnd)) = true := by decide +kernel

/-- A new offer, a held one, and RST. -/
theorem test_witness_FaultedEngineDropsEveryCommandUntilReset :
    let f := raiseFault .noKey State.reset
    let offered : State := { f with host := [offer 0x30#8 textbook] }
    (offered.fault = true ∧ offered.inFlight = none ∧ offered.holding = false ∧ offered.host = offer 0x30#8 textbook :: [] ∧
      (offer 0x30#8 textbook).rst = false ∧ ∃ t, step offered = .next t) ∧
    ((heldBehind f).fault = true ∧ (heldBehind f).inFlight = none ∧ (heldBehind f).holding = true ∧ (heldBehind f).host = []) ∧
    (({ f with host := [assertRst] } : State).host = assertRst :: [] ∧ assertRst.rst = true) :=
  ⟨⟨rfl, rfl, rfl, rfl, rfl, ⟨_, rfl⟩⟩, ⟨rfl, rfl, rfl, rfl⟩, rfl, rfl⟩

theorem test_witness_OnlyResetClearsTheFaultFlag :
    let s : State := { raiseFault .noKey State.reset with host := [assertRst] }
    s.fault = true ∧ nextMeets (fun t => !t.fault) (step s) = true ∧ nextMeets (fun t => !t.fault) (tick s) = true := by decide

/-- A command offered, for the first and the last RDSK word; a reserved word offered, beside the commands' and the last; a held
command, with nothing more in the list; a placed command and a placed reserved word. -/
theorem test_witness_StepRunsTheDecodedCommand :
    (∀ w ∈ [0x40#8, 0x4F#8],
      let s : State := { atEnd with host := [offer w 0#64] }
      s.fault = false ∧ s.inFlight = none ∧ s.holding = false ∧ s.host = [offer w 0#64] ∧ (offer w 0#64).rst = false ∧
        (offer w 0#64).cmdValid = true ∧ decode (offer w 0#64).cmd ≠ none) ∧
    (∀ w ∈ [0x01#8, 0x50#8, 0xFF#8],
      let s : State := { atEnd with host := [offer w 0#64] }
      s.fault = false ∧ s.inFlight = none ∧ s.holding = false ∧ s.host = [offer w 0#64] ∧ (offer w 0#64).rst = false ∧
        (offer w 0#64).cmdValid = true ∧ decode (offer w 0#64).cmd = none) ∧
    (let s := heldBehind atEnd
     s.fault = false ∧ s.inFlight = none ∧ s.host = [] ∧ (present s).holding = true ∧
       decode (present s).pins.cmd = some .gen) ∧
    decode (BitVec.ofNat 8 0x50) = none ∧ decodeTableWord 8 0x4F = some (.rdsk 15) ∧ decodeTableWord 8 0x00 = some .nop := by
  decide

theorem test_witness_OnlyAcceptedCommandsChangeTheEngine :
    let s : State := { atEnd with host := [{ Pins.idle with cmd := 0x10#8, keyIn := textbook }] }
    (s.inFlight = none ∧ s.holding = false ∧ s.host = [{ Pins.idle with cmd := 0x10#8, keyIn := textbook }] ∧
      Pins.idle.rst = false ∧ Pins.idle.cmdValid = false) ∧
    (atEnd.inFlight = none ∧ atEnd.holding = false ∧ atEnd.host = []) := by decide

theorem test_witness_KeyInMattersOnlyToLoadKeyAndGenerate :
    ∀ i ∈ [Instr.nop, .step, .rdsk 0, .rdsk 15], i ≠ .ldkey ∧ i ≠ .gen := by decide

/-- Two states that agree and are not equal, before a step that shows an entry of the bank. -/
theorem test_witness_StateWithNoValueIsNeverObserved :
    let s : State := { keyedAt 1 0xE19955F#28 0xAACCF1E#28 0x0001#16 with host := [offer 0x40#8 0#64] }
    let t : State := { s with sk := s.sk.set 15 0#48, sko := 1#48 }
    Agree s t ∧ s ≠ t ∧ nextMeets (fun u => visibleSubkey u != none) (step s) = true ∧ (∃ t', step t = .next t') := by
  refine ⟨⟨rfl, rfl, rfl, rfl, rfl, rfl, rfl, rfl, rfl, rfl, fun _ => ⟨rfl, rfl⟩, by decide +kernel, by decide⟩, by decide +kernel,
    by decide +kernel, ⟨_, rfl⟩⟩

/-- The invariants, met in the middle of a schedule. -/
theorem test_inv_at_round_15 : Inv atRound15 where
  unkeyed := by decide
  valid_eq := by decide
  schedule := fun _ => ⟨textbook, by decide +kernel, by decide +kernel, by decide +kernel⟩
  fault_iff := by decide
  sko_current := by decide

theorem test_witness_EveryStepKeepsTheInvariants : Inv atRound15 ∧ ∃ t, step atRound15 = .next t := ⟨test_inv_at_round_15, ⟨_, rfl⟩⟩

theorem test_witness_EveryClockEdgeKeepsTheInvariants :
    Inv atRound15 ∧ ReadyWhenFaulted atRound15 ∧ ∃ t, tick atRound15 = .next t :=
  ⟨test_inv_at_round_15, fun _ => rfl, ⟨_, rfl⟩⟩

/-- LDKEY and GEN, and a STEP of the last round. -/
theorem test_witness_ScheduleIsThatOfTheLastKeyLoaded :
    (atRound15.fault = false ∧ (∃ t, exec .ldkey atRound15 = .next t) ∧ ∃ t, exec .gen atRound15 = .next t) ∧
    (Instr.step ≠ .ldkey ∧ Instr.step ≠ .gen ∧ ScheduleOf textbook atRound15 ∧ ∃ t, exec .step atRound15 = .next t) :=
  ⟨⟨rfl, ⟨_, rfl⟩, ⟨_, rfl⟩⟩, nofun, nofun, ⟨by decide +kernel, by decide +kernel, by decide +kernel⟩, ⟨_, rfl⟩⟩

/-- RST while a command is in progress on a complete schedule. -/
theorem test_witness_ResetClearsEveryFlagFromEveryState :
    let s : State := { busyFor 2 atEnd with host := [assertRst] }
    s.host = assertRst :: [] ∧ assertRst.rst = true ∧ s.inFlight ≠ none := by decide

theorem test_witness_BeforeAnyKeyStepAndReadFault : Instr.ldkey = .ldkey ∧ Instr.gen = .gen := by decide

/-- A STEP before any key, then P3's commands. -/
theorem test_witness_FaultedRunDropsEveryLaterCommand :
    NoReset [offer 0x10#8 textbook, offer 0x30#8 textbook] ∧
    nextMeets (fun t => t.fault) (play [offer 0x20#8 0#64] State.reset) = true := by
  exact ⟨by unfold NoReset; decide, by decide +kernel⟩

/-- A new offer, and a held one whose KEY_IN the next entry changes. -/
theorem test_witness_ClockEdgesImplementTheStep :
    (let s : State := { atEnd with host := [offer 0x10#8 abcdefgh, offer 0x20#8 0#64] }
     s.fault = false ∧ s.inFlight = none ∧ NoReset s.host ∧ (present s).holding = true) ∧
    let s : State := { heldBehind atEnd with host := [{ Pins.idle with keyIn := abcdefgh }] }
    s.fault = false ∧ s.inFlight = none ∧ NoReset s.host ∧ (present s).holding = true := by
  exact ⟨⟨rfl, rfl, by unfold NoReset; decide, rfl⟩, rfl, rfl, by unfold NoReset; decide, rfl⟩

/-- Two cycles left and a new offer, for the counting edge; one left, for the completing one; the same with an offer held. -/
theorem test_witness_CommandInProgressShowsNothingAndHoldsTheNext :
    ∀ n ∈ [2, 1],
      let s : State := { busyFor n atEnd with host := [offer 0x20#8 0#64] }
      s.inFlight = some { sampled := offer 0x10#8 textbook, cyclesLeft := n } ∧ (2 ≤ n ∨ n ≤ 1) ∧
        (∀ p rest, s.host = p :: rest → p.rst = false) ∧ s.host = offer 0x20#8 0#64 :: [] ∧
        (offer 0x20#8 0#64).cmdValid = true ∧ s.holding = false ∧ (heldBehind s).holding = true := by
  intro n _
  refine ⟨rfl, by omega, ?_, rfl, rfl, rfl, rfl⟩
  rintro p rest h
  cases h
  rfl

/-- An offer accepted at an edge, and a held one; a command in progress at its last cycle, with an offer waiting. -/
theorem test_witness_KeyIsSampledOnceAtAcceptance :
    (let s : State := { atEnd with host := [offer 0x10#8 textbook] }
     s.fault = false ∧ s.inFlight = none ∧ s.holding = false ∧ s.host = offer 0x10#8 textbook :: [] ∧
       (offer 0x10#8 textbook).rst = false ∧ (offer 0x10#8 textbook).cmdValid = true) ∧
    ((heldBehind atEnd).host = [] ∧ (present (heldBehind atEnd)).holding = true) ∧
    let s : State := { busyFor 1 atEnd with host := [offer 0x20#8 0#64] }
    s.inFlight = some { sampled := offer 0x10#8 textbook, cyclesLeft := 1 } ∧ 1 ≤ 1 ∧
      (∀ p rest, s.host = p :: rest → p.rst = false) ∧ ∃ t, step s = .next t := by
  refine ⟨⟨rfl, rfl, rfl, rfl, rfl, rfl⟩, ⟨rfl, rfl⟩, rfl, Nat.le_refl 1, ?_, ⟨_, rfl⟩⟩
  rintro p rest h
  cases h
  rfl

/-- An offer held: with nothing more in the list, before an entry that offers none, one that offers another, and RST; with a
command in progress and without; and no offer held before an entry. -/
theorem test_witness_HostMayChangeKeyOrResetWhileItsOfferIsHeld :
    ((heldBehind atEnd).holding = true ∧ (heldBehind atEnd).host = [] ∧ (heldBehind atEnd).fault = false ∧
      (heldBehind atEnd).inFlight = none) ∧
    ((heldBehind (busyFor 1 atEnd)).inFlight ≠ none ∧ (heldBehind (busyFor 1 atEnd)).holding = true) ∧
    (Pins.idle.cmdValid = false ∧ Pins.idle.rst = false) ∧ (offer 0x20#8 0#64).cmdValid = true ∧ assertRst.rst = true ∧
    atEnd.holding = false := by decide

end Sys2Proof.Tests
end

section
/-! PROOFS. STATUS (10_state.md R34): which field each bit of the word shows, and from that what every field reads. -/

namespace Sys2Proof.Machine

/-! ## Bits of a word put together from fields -/

/-- A one-bit field is bit 0 of the word it ends, and the rest of the word lies one place up. -/
theorem getLsbD_append_ofBool {w : Nat} (x : BitVec w) (b : Bool) (i : Nat) :
    (x ++ BitVec.ofBool b).getLsbD i = if i < 1 then b else x.getLsbD (i - 1) := by
  rw [BitVec.getLsbD_append, BitVec.getLsbD_ofBool]
  refine ite_congr rfl (fun h => ?_) (fun _ => rfl)
  rw [decide_eq_true (Nat.lt_one_iff.mp h), Bool.true_and]

/-- The bits `start` to `start + len - 1` of a word are the word `x` when they are so one by one. -/
theorem extractLsb'_eq_of_getLsbD {w len : Nat} {x : BitVec len} {word : BitVec w} (start : Nat)
    (h : ∀ i < len, word.getLsbD (start + i) = x.getLsbD i) : word.extractLsb' start len = x := by
  refine BitVec.eq_of_getLsbD_eq fun i hi => ?_
  rw [BitVec.getLsbD_extractLsb', h i hi, decide_eq_true hi, Bool.true_and]

/-! ## The bits of STATUS -/

/-- The layout of R34, low field first: each bound is the first bit above a field. -/
theorem getLsbD_status (s : State) (i : Nat) :
    (status s).getLsbD i =
      if i < 1 then s.keyed
      else if i < 6 then (roundBits s).getLsbD (i - 1)
      else if i < 7 then done s
      else if i < 8 then s.fault
      else if i < 11 then s.ecode.code.getLsbD (i - 8)
      else if i < 12 then s.skoValid
      else if i < 16 then false
      else s.valid.getLsbD (i - 16) := by
  -- The width of the word is written as the sum of its fields' widths, so that the rules for `++` see its parts.
  change BitVec.getLsbD (w := 16 + 4 + 1 + 3 + 1 + 1 + 5 + 1)
    (s.valid ++ 0b0000#4 ++ BitVec.ofBool s.skoValid ++ s.ecode.code ++ BitVec.ofBool s.fault ++ BitVec.ofBool (done s) ++
      roundBits s ++ BitVec.ofBool s.keyed) i = _
  rw [getLsbD_append_ofBool, BitVec.getLsbD_append, getLsbD_append_ofBool, getLsbD_append_ofBool, BitVec.getLsbD_append,
    getLsbD_append_ofBool, BitVec.getLsbD_append, BitVec.getLsbD_zero]
  simp only [Nat.sub_sub]
  -- Both sides test the same fields in the same order; they differ in how a field's bound is written.
  repeat' refine ite_congr (propext (by omega)) (fun _ => ?_) (fun _ => ?_)
  all_goals rfl

/-! ## The fields of STATUS -/

theorem status_keyed (s : State) : (status s).getLsbD 0 = s.keyed := getLsbD_status s 0

theorem status_done (s : State) : (status s).getLsbD 6 = done s := getLsbD_status s 6

theorem status_fault (s : State) : (status s).getLsbD 7 = s.fault := getLsbD_status s 7

theorem status_skoValid (s : State) : (status s).getLsbD 11 = s.skoValid := getLsbD_status s 11

@[simp] theorem status_round (s : State) : (status s).extractLsb' 1 5 = roundBits s := by
  refine extractLsb'_eq_of_getLsbD 1 fun i hi => ?_
  rw [getLsbD_status]
  simp (disch := omega) only [if_pos, if_neg, Nat.add_sub_cancel_left]

@[simp] theorem status_ecode (s : State) : (status s).extractLsb' 8 3 = s.ecode.code := by
  refine extractLsb'_eq_of_getLsbD 8 fun i hi => ?_
  rw [getLsbD_status]
  simp (disch := omega) only [if_pos, if_neg, Nat.add_sub_cancel_left]

@[simp] theorem status_reserved (s : State) : (status s).extractLsb' 12 4 = 0#4 := by
  refine extractLsb'_eq_of_getLsbD 12 fun i hi => ?_
  rw [getLsbD_status, BitVec.getLsbD_zero]
  simp (disch := omega) only [if_pos, if_neg]

@[simp] theorem status_valid (s : State) (r : Nat) : (status s).getLsbD (16 + r) = s.valid.getLsbD r := by
  rw [getLsbD_status]
  simp (disch := omega) only [if_neg, Nat.add_sub_cancel_left]

theorem status_reset : status State.reset = 0x00000000#32 := rfl

/-! ## The values the fields can have -/

/-- R27: ROUND is at most 16. -/
theorem round_le (s : State) : s.round.val ≤ 16 := Nat.le_of_lt_succ s.round.isLt

/-- DONE, with ROUND read as a number (R28). -/
theorem done_eq (s : State) : done s = (s.keyed && decide (s.round.val = 16)) :=
  congrArg (s.keyed && ·) (decide_eq_decide.mpr Fin.ext_iff)

/-- R106: the codes 5 to 7 are no code of a fault. -/
theorem Ecode.code_le (e : Ecode) : e.code.toNat ≤ 4 := by
  cases e <;> decide

/-! ## The obligation -/

/-- Settles O34: each conjunct is what one field of STATUS reads, or the bound of a value it shows. -/
theorem statusShowsEveryField : Obligations.StatusShowsEveryField :=
  ⟨status_reset, fun s => ⟨round_le s, s.ecode.code_le, status_keyed s, status_round s, (status_done s).trans (done_eq s),
    status_fault s, status_ecode s, status_skoValid s, status_reserved s, fun r _ => status_valid s r⟩⟩

end Sys2Proof.Machine
end

section
/-! PROOFS. The decoder (30_encoding.md R58 to R60): it inverts the encoder, and answers no command exactly on the reserved
words. -/

namespace Sys2Proof

/-! ## Words and their fields (R56) -/

theorem opField_append_idxField (w : CmdWord) : opField w ++ idxField w = w :=
  (BitVec.extractLsb'_append_extractLsb'_eq_extractLsb' rfl).trans BitVec.extractLsb'_eq_self

theorem toNat_encode_rdsk (i : BankIdx) : (encode (.rdsk i)).toNat = 0x40 + i.toNat := by
  revert i
  decide

theorem encode_rdsk (i : BankIdx) : encode (.rdsk i) = 0x40#8 + i.setWidth 8 := by
  refine BitVec.eq_of_toNat_eq ((toNat_encode_rdsk i).trans ?_)
  bv_omega

/-! ## Decoding inverts encoding (R58, R59) -/

@[simp] theorem decode_encode (i : Instr) : decode (encode i) = some i := by
  have row : Laws.OpcodeRow.Statement i := by
    cases i with
    | nop => exact Laws.OpcodeRow.nop
    | ldkey => exact Laws.OpcodeRow.ldkey
    | step => exact Laws.OpcodeRow.step
    | gen => exact Laws.OpcodeRow.gen
    | rdsk i => exact Laws.OpcodeRow.rdsk i
  obtain ⟨-, decoded, -⟩ := row
  exact decoded

/-- A row of R58 fixes both fields of the word; in RDSK's row the IDX field is the command's operand. -/
theorem eq_encode_of_decode {w : CmdWord} {i : Instr} (h : decode w = some i) : w = encode i := by
  rw [← opField_append_idxField w]
  unfold decode at h
  split at h
  · next nop => cases h; rw [nop.1, nop.2]; rfl
  split at h
  · next ldkey => cases h; rw [ldkey.1, ldkey.2]; rfl
  split at h
  · next step => cases h; rw [step.1, step.2]; rfl
  split at h
  · next gen => cases h; rw [gen.1, gen.2]; rfl
  split at h
  · next rdsk => cases h; rw [rdsk]; rfl
  · cases h

theorem decode_eq_some_iff {w : CmdWord} {i : Instr} : decode w = some i ↔ w = encode i :=
  ⟨eq_encode_of_decode, fun h => h ▸ decode_encode i⟩

/-! ## The reserved words (R60) -/

/-- R60, in the fields of R56. -/
theorem decode_eq_none_iff (w : CmdWord) :
    decode w = none ↔ 5 ≤ (opField w).toNat ∨ ((opField w).toNat ≤ 3 ∧ idxField w ≠ 0#4) := by
  unfold decode
  split
  · next nop => simp [nop]
  split
  · next ldkey => simp [ldkey]
  split
  · next step => simp [step]
  split
  · next gen => simp [gen]
  split
  · next rdsk => simp [rdsk]
  · -- The word is in no row: not OP 0 to 3 with IDX 0, and not RDSK's OP.
    rw [eq_self, true_iff]
    bv_omega

/-- A word that is none of the five commands' words is reserved: a command it decoded to would have it as its word. -/
theorem decode_eq_none_of_ne {w : CmdWord} (nop : w ≠ 0x00#8) (ldkey : w ≠ 0x10#8) (step : w ≠ 0x20#8) (gen : w ≠ 0x30#8)
    (rdsk : ¬(0x40 ≤ w.toNat ∧ w.toNat ≤ 0x4F)) : decode w = none := by
  refine Option.eq_none_iff_forall_ne_some.mpr fun i h => ?_
  obtain rfl := eq_encode_of_decode h
  cases i with
  | nop => exact nop rfl
  | ldkey => exact ldkey rfl
  | step => exact step rfl
  | gen => exact gen rfl
  | rdsk i =>
    have := toNat_encode_rdsk i
    exact rdsk (by omega)

theorem length_filter_isNone_decode :
    ((List.range 256).filter (fun n => (decode (BitVec.ofNat 8 n)).isNone)).length = 236 := by
  decide +kernel

theorem length_filter_isSome_decode :
    ((List.range 256).filter (fun n => (decode (BitVec.ofNat 8 n)).isSome)).length = 20 := by
  decide +kernel

/-! ## The obligations -/

/-- Settles O1: the words of R58 are those of `encode`, and a word that is none of them is reserved. -/
theorem commandWordsDecodeAndAllOthersAreReserved : Obligations.CommandWordsDecodeAndAllOthersAreReserved :=
  ⟨decode_encode .nop, decode_encode .ldkey, decode_encode .step, decode_encode .gen,
    fun i => encode_rdsk i ▸ decode_encode (.rdsk i), fun _ => decode_eq_none_of_ne⟩

/-- Settles O4: the reserved words by their fields, the sizes of the groups by counting, and the frame's answer to a reserved
word. -/
theorem reservedWordsRaiseIllegalCommand : Obligations.ReservedWordsRaiseIllegalCommand :=
  ⟨decode_eq_none_iff, by decide +kernel, by decide +kernel, length_filter_isNone_decode, length_filter_isSome_decode,
    fun _ => Machine.accept_reserved⟩

end Sys2Proof
end

section
/-! PROOFS. The PC-1 network and the byte layout (40_datapath.md R70, R71, R79): which key bit each output of PC-1 copies, which
key bits drive none, and which bit of which byte a source position is. -/

namespace Sys2Proof.Machine

/-! ## Permutation networks in LSB-0 numbering (R11, R13) -/

/-- The bit that output position `i` of a network copies, in both numberings: 1-based entry `e` is bit `w - e` of the input. -/
theorem getLsbD_permute {w n i : Nat} {table : List Nat} (v : BitVec w) (hi : i < n) (pos : 1 ≤ table.getD i 0)
    (le : table.getD i 0 ≤ w) : (permute n table v).getLsbD (n - 1 - i) = v.getLsbD (w - table.getD i 0) := by
  rw [← getBit_eq_getLsbD _ hi, getBit_permute, decide_eq_true hi, Bool.true_and, getBit_eq_getLsbD _ (by omega)]
  congr 1
  omega

/-! ## The PC-1 table (R71) -/

theorem length_pc1Table : pc1Table.length = 56 := rfl

theorem nodup_pc1Table : pc1Table.Nodup := by decide

/-- R71: an entry names a position of the key, and never a parity position: those are the multiples of 8. -/
theorem bounds_of_mem_pc1Table : ∀ e ∈ pc1Table, 1 ≤ e ∧ e ≤ 63 ∧ e % 8 ≠ 0 := by decide

theorem pc1Table_getD_mem {i : Nat} (hi : i < 56) : pc1Table.getD i 0 ∈ pc1Table := by
  rw [← List.getElem_eq_getD (h := hi)]
  exact List.getElem_mem hi

/-! ## The PC-1 network (R70) -/

theorem getBit_pc1Net (k : Key) {i : Nat} (hi : i < 56) : getBit (pc1Net k) i = getBit k (pc1Table.getD i 0 - 1) := by
  rw [pc1Net, getBit_permute, decide_eq_true hi, Bool.true_and]

theorem getLsbD_pc1Net (k : Key) {i : Nat} (hi : i < 56) :
    (pc1Net k).getLsbD (55 - i) = k.getLsbD (64 - pc1Table.getD i 0) := by
  obtain ⟨pos, le, -⟩ := bounds_of_mem_pc1Table _ (pc1Table_getD_mem hi)
  exact getLsbD_permute k hi pos (by omega)

/-- PC-1 depends on the 56 positions that hold no parity bit, and on nothing else of the key. -/
theorem pc1Net_congr {k k' : Key} (h : ∀ p, p % 8 ≠ 7 → getBit k p = getBit k' p) : pc1Net k = pc1Net k' := by
  refine eq_of_getBit_eq fun i hi => ?_
  obtain ⟨pos, -, notParity⟩ := bounds_of_mem_pc1Table _ (pc1Table_getD_mem hi)
  rw [getBit_pc1Net k hi, getBit_pc1Net k' hi]
  exact h _ (by omega)

/-- R85: the mask is 0 outside the parity positions. -/
theorem getBit_parityMask_of_ne (q : BitVec 8) {p : Nat} (h : p % 8 ≠ 7) : getBit (parityMask q) p = false := by
  rw [parityMask, getBit_wires, beq_false_of_ne h, Bool.false_and, Bool.and_false]

@[simp] theorem pc1Net_xor_parityMask (k : Key) (q : BitVec 8) : pc1Net (k ^^^ parityMask q) = pc1Net k :=
  pc1Net_congr fun p h => by rw [getBit_xor, getBit_parityMask_of_ne q h, Bool.xor_false]

/-! ## Bytes of a bus (R12, R79) -/

@[simp] theorem pack_eq (v : Subkey) : pack v = v := rfl

/-- R12: on a bus of whole bytes, source position `p` is in byte `p / 8`, counted from that byte's most significant bit. -/
theorem getLsbD_byteAt {w p : Nat} (v : BitVec w) (bytes : 8 ∣ w) (hp : p < w) :
    (byteAt v (p / 8)).getLsbD (7 - p % 8) = getBit v p := by
  rw [byteAt, BitVec.getLsbD_extractLsb', decide_eq_true (by omega), Bool.true_and, getBit_eq_getLsbD v hp]
  congr 1
  omega

/-! ## The obligations -/

/-- Settles O8: the wiring in both numberings, the table's shape, and the parity bits, which no entry names. -/
theorem pc1NetworkCopiesTheNamedKeyBits : Obligations.Pc1NetworkCopiesTheNamedKeyBits :=
  ⟨fun k _ hi => ⟨getBit_pc1Net k hi, getLsbD_pc1Net k hi⟩, length_pc1Table, nodup_pc1Table, pc1Net_xor_parityMask,
    by decide +kernel⟩

/-- Settles O13: both buses are of whole bytes, and PACK is the identity. -/
theorem bytesAreMostSignificantFirst : Obligations.BytesAreMostSignificantFirst :=
  ⟨fun k _ hp => getLsbD_byteAt k (by decide) hp, pack_eq, fun _ _ _ => rfl,
    fun v _ hp => getLsbD_byteAt (pack v) (by decide) hp, by decide +kernel⟩

end Sys2Proof.Machine
end

section
/-! PROOFS. The key schedule (40_datapath.md R83, R84; 41_commands.md R94): the halves carried into a round are the post-split
halves rotated by CUM, sixteen rounds give them back, and GEN's loop fills the bank with KS. -/

namespace Sys2Proof.Machine

/-! ## Rotations compose (R74) -/

@[simp] theorem rotl28_zero (x : Half) : rotl28 x 0 = x := by
  refine eq_of_getBit_eq fun p hp => ?_
  rw [getBit_rotl28 x (by decide) hp, Nat.add_zero, Nat.mod_eq_of_lt hp]

theorem rotl28_rotl28 (x : Half) {s t : Nat} (hs : s < 28) (ht : t < 28) :
    rotl28 (rotl28 x s) t = rotl28 x ((s + t) % 28) := by
  refine eq_of_getBit_eq fun p hp => ?_
  rw [getBit_rotl28 _ ht hp, getBit_rotl28 _ hs (Nat.mod_lt _ (by decide)), getBit_rotl28 _ (Nat.mod_lt _ (by decide)) hp]
  congr 1
  omega

/-! ## The closed form of the carried halves (R80, R84) -/

/-- R93: which rounds rotate by 1. -/
theorem shiftAmount_eq (r : Fin 16) : shiftAmount r = if r = 0 ∨ r = 1 ∨ r = 8 ∨ r = 15 then 1 else 2 := by
  revert r
  decide

theorem shiftAmount_lt (r : Fin 16) : shiftAmount r < 28 := by
  rw [shiftAmount_eq]
  split <;> decide

theorem cum_succ (r : Fin 16) : cum (r.val + 1) = cum r.val + shiftAmount r := by
  revert r
  decide

@[simp] theorem rotatedBy_zero (x : Half) : rotatedBy x 0 = x := rotl28_zero x

/-- CUM(16) = 28, the width of a half. -/
@[simp] theorem rotatedBy_sixteen (x : Half) : rotatedBy x 16 = x := rotl28_zero x

theorem rotl28_rotatedBy (x : Half) (r : Fin 16) : rotl28 (rotatedBy x r.val) (shiftAmount r) = rotatedBy x (r.val + 1) := by
  rw [rotatedBy, rotl28_rotl28 x (Nat.mod_lt _ (by decide)) (shiftAmount_lt r), Nat.mod_add_mod, ← cum_succ, rotatedBy]

theorem carried_eq_rotatedBy (k : Key) {n : Nat} (hn : n ≤ 16) :
    carried k n = (rotatedBy (startC k) n, rotatedBy (startD k) n) := by
  induction n with
  | zero => rw [rotatedBy_zero, rotatedBy_zero]; rfl
  | succ n ih =>
    rw [carried_succ k hn, ih (Nat.le_of_succ_le hn)]
    exact Prod.ext (rotl28_rotatedBy (startC k) ⟨n, hn⟩) (rotl28_rotatedBy (startD k) ⟨n, hn⟩)

/-- The halves after round 15 are the post-split halves again. -/
theorem carried_sixteen (k : Key) : carried k 16 = (startC k, startD k) := by
  rw [carried_eq_rotatedBy k (Nat.le_refl 16), rotatedBy_sixteen, rotatedBy_sixteen]

/-! ## GEN's loop (R94) -/

/-- The bank `sk` with the subkeys of key `k` in its first `n` entries. -/
def bankFilledTo (k : Key) (n : Nat) (sk : Vector Subkey 16) : Vector Subkey 16 :=
  Vector.ofFn fun r => if r.val < n then ks k r else sk.get r

theorem bankFilledTo_zero (k : Key) (sk : Vector Subkey 16) : bankFilledTo k 0 sk = sk := by
  ext i hi
  simp [bankFilledTo, Vector.get]

theorem bankFilledTo_sixteen (k : Key) (sk : Vector Subkey 16) : bankFilledTo k 16 sk = Vector.ofFn (ks k) :=
  congrArg Vector.ofFn (funext fun r => if_pos r.isLt)

theorem set_bankFilledTo (k : Key) {n : Nat} (hn : n < 16) (sk : Vector Subkey 16) :
    (bankFilledTo k n sk).set n (ks k ⟨n, hn⟩) = bankFilledTo k (n + 1) sk := by
  ext1 i hi
  rw [Vector.getElem_set, bankFilledTo, bankFilledTo, Vector.getElem_ofFn, Vector.getElem_ofFn]
  by_cases h : n = i
  · subst h
    rw [if_pos rfl, if_pos (Nat.lt_succ_self n)]
  · rw [if_neg h]
    exact ite_congr (propext (show i < n ↔ i < n + 1 by omega)) (fun _ => rfl) (fun _ => rfl)

theorem take_succ_allRounds {n : Nat} (hn : n < 16) : allRounds.take (n + 1) = allRounds.take n ++ [⟨n, hn⟩] := by
  have all : ∀ r : Fin 16, allRounds.take (r.val + 1) = allRounds.take r.val ++ [r] := by decide
  exact all ⟨n, hn⟩

/-- GEN's loop after `n` turns: the halves carried into round `n`, and the subkeys of the rounds before it in the bank. -/
theorem foldl_genRound_take (k : Key) (sk : Vector Subkey 16) {n : Nat} (hn : n ≤ 16) :
    (allRounds.take n).foldl genRound { c := startC k, d := startD k, sk := sk } =
      { c := (carried k n).1, d := (carried k n).2, sk := bankFilledTo k n sk } := by
  induction n with
  | zero => rw [bankFilledTo_zero]; rfl
  | succ n ih =>
    rw [take_succ_allRounds hn, List.foldl_append, List.foldl_cons, List.foldl_nil, ih (Nat.le_of_succ_le hn), genRound_carried k hn, set_bankFilledTo]

theorem genLoop_start (k : Key) (sk : Vector Subkey 16) :
    genLoop { c := startC k, d := startD k, sk := sk } =
      { c := startC k, d := startD k, sk := Vector.ofFn (ks k) } := by
  have whole := foldl_genRound_take k sk (Nat.le_refl 16)
  rw [carried_sixteen, bankFilledTo_sixteen] at whole
  exact whole

end Sys2Proof.Machine
end

section
/-! PROOFS. The five commands (41_commands.md R91 to R95): the state each answers written out, and what the commands after it
do. -/

namespace Sys2Proof.Machine

/-! ## Which entries are valid (R26) -/

theorem entryValid_of_cleared {s : State} (hv : s.valid = 0#16) (i : BankIdx) : entryValid s i = false := by
  rw [entryValid, hv, BitVec.getLsbD_zero]

theorem entryValid_of_full {s : State} (hv : s.valid = 0xFFFF#16) (i : BankIdx) : entryValid s i = true := by
  rw [entryValid, hv, show 0xFFFF#16 = BitVec.allOnes 16 from rfl, BitVec.getLsbD_allOnes]
  exact decide_eq_true i.isLt

/-! ## STATUS of a keyed engine without a fault (R34) -/

/-- The STATUS word with KEYED = 1, no fault, and these fields. -/
def keyedStatus (round : Fin 17) (valid : BitVec 16) (skoValid : Bool) : StatusWord :=
  status { State.reset with keyed := true, round := round, valid := valid, skoValid := skoValid }

theorem status_of_noFault {s : State} (hf : s.fault = false) (he : s.ecode = .noFault) (hk : s.keyed = true) :
    status s = keyedStatus s.round s.valid s.skoValid :=
  status_congr hk rfl rfl hf he rfl

/-! ## NOP (R91) -/

/-- NOP's word leaves the state, whether it is dropped or executed. -/
theorem accept_nop {s : State} (hc : s.pins.cmd = 0x00#8) : accept s = .next s := by
  cases hf : s.fault
  · exact accept_command hf (by rw [hc]; rfl)
  · exact accept_dropped hf

/-- A word with OP 0 and a nonzero IDX is reserved (R60). -/
theorem decode_op_zero {w : CmdWord} (op : opField w = 0x0#4) (idx : idxField w ≠ 0x0#4) : decode w = none :=
  (decode_eq_none_iff w).mpr (.inr ⟨by simp [op], idx⟩)

/-- Settles O20: NOP has no write, executed or dropped, and a nonzero IDX makes the word reserved. -/
theorem nopChangesNothing : Obligations.NopChangesNothing :=
  ⟨decode_encode .nop, exec_nop, fun _ => accept_nop, fun _ hf op idx => accept_reserved hf (decode_op_zero op idx),
    State.reset, exec_nop _, status_reset⟩

/-! ## LDKEY (R92) -/

/-- The state LDKEY leaves. -/
def afterLdkey (s : State) : State :=
  { loadHalves (startC s.pins.keyIn) (startD s.pins.keyIn) s with round := 0, valid := 0#16, skoValid := false }

theorem exec_ldkey_afterLdkey (s : State) : exec .ldkey s = .next (afterLdkey s) := exec_ldkey s

/-- The key is the same, so a second LDKEY writes what the first one wrote. -/
theorem exec_ldkey_twice (s : State) : exec .ldkey (afterLdkey s) = .next (afterLdkey s) := exec_ldkey_afterLdkey _

@[simp] theorem startC_xor_parityMask (k : Key) (q : BitVec 8) : startC (k ^^^ parityMask q) = startC k :=
  congrArg splitC (pc1Net_xor_parityMask k q)

@[simp] theorem startD_xor_parityMask (k : Key) (q : BitVec 8) : startD (k ^^^ parityMask q) = startD k :=
  congrArg splitD (pc1Net_xor_parityMask k q)

/-- R85: parity bits of the key change KEY_IN itself and nothing LDKEY writes. -/
theorem exec_ldkey_xor_parityMask (s : State) (q : BitVec 8) :
    exec .ldkey { s with pins := { s.pins with keyIn := s.pins.keyIn ^^^ parityMask q } } =
      mapNext (fun t => { t with pins := { s.pins with keyIn := s.pins.keyIn ^^^ parityMask q } }) (exec .ldkey s) := by
  rw [exec_ldkey, exec_ldkey, startC_xor_parityMask, startD_xor_parityMask]
  rfl

theorem startC_textbook : startC 0x133457799BBCDFF1#64 = 0xF0CCAAF#28 := by decide +kernel

theorem startD_textbook : startD 0x133457799BBCDFF1#64 = 0x556678F#28 := by decide +kernel

theorem status_afterLdkey {s : State} (hf : s.fault = false) (he : s.ecode = .noFault) :
    status (afterLdkey s) = 0x00000001#32 :=
  calc status (afterLdkey s) = keyedStatus 0 0x0000#16 false := status_of_noFault (s := afterLdkey s) hf he rfl
    _ = 0x00000001#32 := by decide

/-- Settles O21: the state LDKEY leaves, and that it is the start of a schedule with nothing to read. -/
theorem loadKeyStartsASchedule : Obligations.LoadKeyStartsASchedule := by
  refine ⟨decode_encode .ldkey, fun s _ => exec_ldkey s, ?_, fun s q _ => exec_ldkey_xor_parityMask s q, ?_⟩
  · intro s t _ h
    cases h
    exact ⟨rfl, exec_ldkey_twice s, rfl, fun i => exec_rdsk_unwritten (entryValid_of_cleared rfl i)⟩
  · intro s hf he hk
    refine ⟨afterLdkey s, exec_ldkey_afterLdkey s, ?_, ?_, rfl, status_afterLdkey hf he⟩
    · exact (congrArg startC hk).trans startC_textbook
    · exact (congrArg startD hk).trans startD_textbook

/-! ## STEP (R93) -/

theorem done_afterRound {s : State} (hk : s.keyed = true) (r : Fin 16) : done (afterRound s r) = true ↔ r = 15 := by
  rw [done_eq, afterRound_keyed, hk, Bool.true_and, decide_eq_true_iff, afterRound_round, Fin.val_succ, Fin.ext_iff]
  exact Nat.succ_inj

/-- Round 15 rotates the halves the rest of the way round (R84). -/
theorem afterRound_fifteen {k : Key} {s : State} (hr : s.round = 15) (hs : ScheduleOf k s) :
    (afterRound s 15).c = startC k ∧ (afterRound s 15).d = startD k := by
  obtain ⟨hc, hd, -⟩ := hs
  rw [hr] at hc hd
  rw [afterRound_c, afterRound_d, hc, hd]
  exact ⟨(rotl28_rotatedBy _ 15).trans (rotatedBy_sixteen _), (rotl28_rotatedBy _ 15).trans (rotatedBy_sixteen _)⟩

/-- Round 0 of the textbook key, as R93 prints it. -/
theorem roundF_textbook_zero :
    roundF 0xF0CCAAF#28 0x556678F#28 0 = { c := 0xE19955F#28, d := 0xAACCF1E#28, subkey := 0x1B02EFFC7072#48 } := by
  decide +kernel

theorem status_afterRound_zero {s : State} (hf : s.fault = false) (he : s.ecode = .noFault) (hk : s.keyed = true)
    (hv : s.valid = 0x0000#16) : status (afterRound s 0) = 0x00010803#32 := by
  have valid : (afterRound s 0).valid = 0x0001#16 := by rw [afterRound_valid, hv]; rfl
  calc status (afterRound s 0) = keyedStatus 1 (afterRound s 0).valid true :=
        status_of_noFault (s := afterRound s 0) hf he hk
    _ = 0x00010803#32 := by rw [valid]; decide

/-- Settles O22: the two faults in R93's order, the round with its amount written out, and R84 for the last round. -/
theorem stepRunsTheRoundThatRoundNames : Obligations.StepRunsTheRoundThatRoundNames := by
  refine ⟨decode_encode .step, fun _ _ => exec_step_unkeyed, fun _ _ => exec_step_overrun, ?_, ?_, ?_⟩
  · intro s r _ hk hr
    refine ⟨afterRound s r, exec_step_round hk hr, ?_, done_afterRound hk r⟩
    rw [← shiftAmount_eq]
    rfl
  · intro s hf he hk hr hv hc hd
    have round := roundF_textbook_zero
    rw [← hc, ← hd] at round
    refine ⟨afterRound s 0, exec_step_round hk hr, ?_, ?_, ?_, ?_, rfl, rfl, status_afterRound_zero hf he hk hv⟩
    · rw [afterRound_c, round]
    · rw [afterRound_d, round]
    · simp only [afterRound_sk, round]
      exact Vector.getElem_set_self _
    · rw [afterRound_sko, round]
  · intro k s t _ hk hr hs h
    rw [exec_step_round (r := 15) hk hr] at h
    cases h
    exact afterRound_fifteen hr hs

/-! ## GEN (R94) -/

/-- The state GEN leaves, by the key schedule KS. -/
theorem afterGen_eq (s : State) :
    afterGen s =
      { s with
        c := startC s.pins.keyIn, d := startD s.pins.keyIn, keyed := true, round := 16,
        sk := Vector.ofFn (ks s.pins.keyIn), valid := 0xFFFF#16, sko := ks s.pins.keyIn 15, skoIdx := 15#4,
        skoValid := true } := by
  simp only [afterGen, genLoop_start, Vector.getElem_ofFn]
  rfl

theorem exec_rdsk_afterGen (s : State) (i : BankIdx) :
    exec (.rdsk i) (afterGen s) = .next { afterGen s with sko := ks s.pins.keyIn i.toFin, skoIdx := i } := by
  have entry : readEntry (afterGen s) i = ks s.pins.keyIn i.toFin := by
    rw [afterGen_eq]
    exact Vector.getElem_ofFn _
  rw [exec_rdsk_valid (entryValid_of_full rfl i), entry]
  rfl

/-- The subkeys of the textbook key that R93 to R95 print. -/
theorem ks_textbook :
    ks 0x133457799BBCDFF1#64 0 = 0x1B02EFFC7072#48 ∧ ks 0x133457799BBCDFF1#64 1 = 0x79AED9DBC9E5#48 ∧
      ks 0x133457799BBCDFF1#64 15 = 0xCB3D8B0E17F5#48 := by
  decide +kernel

theorem status_afterGen {s : State} (hf : s.fault = false) (he : s.ecode = .noFault) :
    status (afterGen s) = 0xFFFF0861#32 :=
  calc status (afterGen s) = keyedStatus 16 0xFFFF#16 true := status_of_noFault (s := afterGen s) hf he rfl
    _ = 0xFFFF0861#32 := by decide

/-- Settles O23: GEN's loop computes KS, and the commands after it meet a full bank at ROUND = 16. -/
theorem generateComputesTheWholeSchedule : Obligations.GenerateComputesTheWholeSchedule := by
  refine ⟨decode_encode .gen, fun s _ => (exec_gen s).trans (congrArg _ (afterGen_eq s)), ?_, ?_⟩
  · intro s t _ h
    cases h
    exact ⟨rfl, exec_step_overrun rfl rfl, exec_rdsk_afterGen s, afterLdkey (afterGen s), exec_ldkey_afterLdkey _, rfl, rfl⟩
  · intro s hf he hk
    obtain ⟨sk0, -, sk15⟩ := ks_textbook
    refine ⟨afterGen s, exec_gen s, ?_, ?_, ?_, rfl, status_afterGen hf he⟩
    · simp only [afterGen_eq, hk, Vector.getElem_ofFn]
      exact sk0
    · simp only [afterGen_eq, hk, Vector.getElem_ofFn]
      exact sk15
    · rw [afterGen_eq, hk]
      exact sk15

/-! ## RDSK (R95) -/

theorem entryValid_afterRound (s : State) (r : Fin 16) : entryValid (afterRound s r) (BitVec.ofNat 4 r.val) = true := by
  rw [entryValid, BitVec.toNat_ofNat, Nat.mod_eq_of_lt r.isLt, afterRound_valid, BitVec.getLsbD_or, BitVec.getLsbD_twoPow]
  simp

theorem readEntry_afterRound (s : State) (r : Fin 16) :
    readEntry (afterRound s r) (BitVec.ofNat 4 r.val) = (roundF s.c s.d r).subkey := by
  simp [readEntry]

/-- SKO shows the entry a STEP wrote, so reading that entry changes nothing. -/
theorem exec_rdsk_afterRound (s : State) (r : Fin 16) :
    exec (.rdsk (BitVec.ofNat 4 r.val)) (afterRound s r) = .next (afterRound s r) := by
  rw [exec_rdsk_valid (entryValid_afterRound s r), readEntry_afterRound]
  rfl

/-- Settles O24: the two outcomes by VALID[i], and reads after a STEP and after GEN. -/
theorem readSubkeyShowsTheNamedEntry : Obligations.ReadSubkeyShowsTheNamedEntry := by
  refine ⟨fun i => encode_rdsk i ▸ decode_encode (.rdsk i), fun _ _ _ => exec_rdsk_valid,
    fun _ _ _ => exec_rdsk_unwritten, ?_, ?_⟩
  · intro s t u r _ hk hr ht hu
    rw [exec_step_round hk hr] at ht
    cases ht
    rw [exec_rdsk_afterRound] at hu
    cases hu
    rfl
  · intro s t _ hk ht
    cases ht
    obtain ⟨-, sk1, -⟩ := ks_textbook
    exact ⟨_, exec_rdsk_afterGen s 1#4, (congrArg (ks · 1) hk).trans sk1, rfl⟩

end Sys2Proof.Machine
end

section
/-! PROOFS. Precise faults (60_exceptions.md R112): the only write to FAULT or ECODE by a command is `raiseFault`, which abandons
every other write. -/

namespace Sys2Proof.Machine

/-- A command writes FAULT and ECODE only by raising a fault, and then it writes nothing else. -/
theorem exec_keeps_or_raises {i : Instr} {s t : State} (h : exec i s = .next t) :
    (t.fault = s.fault ∧ t.ecode = s.ecode) ∨ ∃ e, e ≠ .noFault ∧ t = raiseFault e s := by
  cases exec_cases h with
  | nop | ldkey | stepRound | gen | rdskValid => exact .inl ⟨rfl, rfl⟩
  | stepUnkeyed => exact .inr ⟨.noKey, by decide, rfl⟩
  | stepOverrun => exact .inr ⟨.roundOverrun, by decide, rfl⟩
  | rdskUnwritten => exact .inr ⟨.skUnwritten, by decide, rfl⟩

/-- The same of the frame, where a reserved word raises a fault and a dropped command keeps the state. -/
theorem accept_keeps_or_raises {s t : State} (h : accept s = .next t) :
    (t.fault = s.fault ∧ t.ecode = s.ecode) ∨ ∃ e, e ≠ .noFault ∧ t = raiseFault e s := by
  rcases accept_cases h with ⟨-, rfl⟩ | ⟨-, -, rfl⟩ | ⟨i, -, -, hx⟩
  · exact .inl ⟨rfl, rfl⟩
  · exact .inr ⟨.illegalCmd, by decide, rfl⟩
  · exact exec_keeps_or_raises hx

/-- A command that brings FAULT from 0 to 1 did so by `raiseFault` of the state before it. -/
theorem accept_raises {s t : State} (hf : s.fault = false) (h : accept s = .next t) (ht : t.fault = true) :
    ∃ e, e ≠ .noFault ∧ t = raiseFault e s := by
  refine (accept_keeps_or_raises h).resolve_left fun ⟨kept, _⟩ => ?_
  rw [kept, hf] at ht
  exact Bool.false_ne_true ht

/-- Settles O36: the state after a fault is `raiseFault` of the state before, and STATUS shows the two fields that writes. -/
theorem faultEntryWritesOnlyFaultAndCode : Obligations.FaultEntryWritesOnlyFaultAndCode := by
  intro s t hf h ht
  obtain ⟨e, he, rfl⟩ := accept_raises hf h ht
  exact ⟨rfl, he, status_fault _, status_ecode _⟩

end Sys2Proof.Machine
end

section
/-! PROOFS. Before any key (70_reset_and_hazards.md R123): reset leaves KEYED = 0 and VALID = 0, so STEP and every RDSK fault,
and only the two commands that load a key run, whatever the ports show. -/

namespace Sys2Proof.Machine

/-- LDKEY and GEN read no flag: they keep FAULT and set KEYED in every state. -/
theorem exec_loads_key {i : Instr} (hi : i = .ldkey ∨ i = .gen) (s : State) :
    ∃ t, exec i s = .next t ∧ t.fault = s.fault ∧ t.keyed = true := by
  rcases hi with rfl | rfl
  · exact ⟨_, exec_ldkey s, rfl, rfl⟩
  · exact ⟨_, exec_gen s, rfl, rfl⟩

/-- Settles O50: the unkeyed STEP, the RDSK of a cleared bank and the load of a key, each at the reset state. -/
theorem beforeAnyKeyStepAndReadFault : Obligations.BeforeAnyKeyStepAndReadFault := by
  intro p
  refine ⟨?step, ?rdsk, ?load⟩
  case step => exact exec_step_unkeyed rfl
  case rdsk => exact fun i => exec_rdsk_unwritten (entryValid_of_cleared rfl i)
  case load => exact fun i hi => exec_loads_key hi _

end Sys2Proof.Machine
end

section
/-! PROOFS. The encoder read backwards (30_encoding.md R58 to R66): decode and encode as inverses, the opcode table's rows as masked
words, and the words an assembler line stands for. -/

namespace Sys2Proof

/-! ## Decode and encode (R58 to R60) -/

/-- Settles O3: a command's word determines both fields, and the commands and the reserved words are counted. -/
theorem decodeAndEncodeAgree : Obligations.DecodeAndEncodeAgree :=
  ⟨fun _ _ => decode_eq_some_iff, length_filter_isSome_decode, length_filter_isNone_decode⟩

/-! ## The rows of the opcode table (R66) -/

/-- The mask of a row without an operand keeps the whole word, so the row selects its command's word and no other. -/
theorem and_full_mask_eq_iff (w : CmdWord) (i : Instr) : w &&& 0xFF#8 = encode i ↔ decode w = some i := by
  rw [decode_eq_some_iff, show 0xFF#8 = BitVec.allOnes 8 from rfl, BitVec.and_allOnes]

/-- RDSK's mask keeps OP and clears IDX. -/
theorem and_op_mask (w : CmdWord) : w &&& 0xF0#8 = opField w ++ 0#4 :=
  calc w &&& 0xF0#8 = (opField w ++ idxField w) &&& (BitVec.allOnes 4 ++ 0#4) :=
        congrArg (· &&& 0xF0#8) (opField_append_idxField w).symm
    _ = opField w ++ 0#4 := by rw [BitVec.and_append, BitVec.and_allOnes, BitVec.and_zero]

/-- RDSK's row selects by OP alone, and IDX is the operand. -/
theorem and_op_mask_eq_iff (w : CmdWord) : w &&& 0xF0#8 = 0x40#8 ↔ decode w = some (.rdsk (idxField w)) :=
  calc w &&& 0xF0#8 = 0x40#8 ↔ opField w ++ 0#4 = 0x4#4 ++ 0#4 := by rw [and_op_mask]; rfl
    _ ↔ opField w ++ idxField w = 0x4#4 ++ idxField w := by rw [BitVec.append_left_inj, BitVec.append_left_inj]
    _ ↔ decode w = some (.rdsk (idxField w)) := by rw [opField_append_idxField, decode_eq_some_iff]; rfl

/-- Settles O2: each row by its mask, and a word with a command would match that command's row. -/
theorem opcodeTableRowsSelectTheirWords : Obligations.OpcodeTableRowsSelectTheirWords := by
  intro w
  refine ⟨and_full_mask_eq_iff w .nop, and_full_mask_eq_iff w .ldkey, and_full_mask_eq_iff w .step, and_full_mask_eq_iff w .gen,
    and_op_mask_eq_iff w, fun nop ldkey step gen rdsk => Option.eq_none_iff_forall_ne_some.mpr fun i h => ?_⟩
  cases i with
  | nop => exact nop ((and_full_mask_eq_iff w .nop).mpr h)
  | ldkey => exact ldkey ((and_full_mask_eq_iff w .ldkey).mpr h)
  | step => exact step ((and_full_mask_eq_iff w .step).mpr h)
  | gen => exact gen ((and_full_mask_eq_iff w .gen).mpr h)
  | rdsk i =>
    obtain ⟨selected, -⟩ := Laws.OpcodeRow.rdsk i
    exact rdsk (eq_encode_of_decode h ▸ selected)

/-! ## Assembler lines (R62, R63) -/

/-- Every line but `.word` stands for offers of commands' words: the number written beside RDSK is cut to its field. -/
theorem eq_offer_of_mem_expandLine {other : Key} {line : AsmLine} (raw : ∀ w, line ≠ .word w) {p : Machine.Pins}
    (hp : p ∈ Machine.expandLine other line) : ∃ (i : Instr) (k : Key), p = Machine.offer (encode i) k := by
  cases line with
  | nop => exact ⟨.nop, other, List.mem_singleton.mp hp⟩
  | ldkey key => exact ⟨.ldkey, _, List.mem_singleton.mp hp⟩
  | step => exact ⟨.step, other, List.mem_singleton.mp hp⟩
  | gen key => exact ⟨.gen, _, List.mem_singleton.mp hp⟩
  | rdsk i => exact ⟨.rdsk _, other, List.mem_singleton.mp hp⟩
  | word w => exact absurd rfl (raw w)
  | stepn n => exact ⟨.step, other, List.eq_of_mem_replicate hp⟩
  | rdall =>
    obtain ⟨i, -, rfl⟩ := List.mem_map.mp hp
    exact ⟨.rdsk i, other, rfl⟩
  | sched key =>
    rcases List.mem_cons.mp hp with rfl | hp
    · exact ⟨.ldkey, _, rfl⟩
    · exact ⟨.step, other, List.eq_of_mem_replicate hp⟩

/-- Settles O5: a line's offers carry commands' words, which decode; the printed examples are evaluated. -/
theorem wellFormedLinesAssembleToLegalCommands : Obligations.WellFormedLinesAssembleToLegalCommands := by
  refine ⟨fun other line _ raw p hp => ?_,
    fun other => ⟨rfl, rfl, rfl, rfl, rfl, rfl, rfl, by decide, rfl, by decide, rfl, by decide⟩⟩
  obtain ⟨i, k, rfl⟩ := eq_offer_of_mem_expandLine raw hp
  exact ⟨rfl, rfl, by rw [Machine.offer, decode_encode]; exact Option.some_ne_none i⟩

end Sys2Proof
end

section
/-! PROOFS. The other networks (40_datapath.md R67 to R87): bit accessors, PC-2, split and recombination, and the rotations, each
from what it does at one source position. -/

namespace Sys2Proof.Machine

/-! ## Bit accessors (R67, R68) -/

theorem getLsbD_setBit {w p : Nat} (v : BitVec w) (b : Bool) (hp : p < w) (i : Nat) :
    (setBit v p b).getLsbD i = if i = w - 1 - p then b else v.getLsbD i := by
  have written : (w - 1 - p = i) = (i = w - 1 - p) := propext eq_comm
  have inside : w - 1 - p < w := by omega
  rw [setBit, if_pos hp]
  cases b with
  | true =>
    rw [if_pos rfl, BitVec.getLsbD_or, BitVec.getLsbD_twoPow]
    by_cases h : i = w - 1 - p
    · simp [h, inside]
    · simp [h, written]
  | false =>
    rw [if_neg Bool.false_ne_true, BitVec.getLsbD_and, BitVec.getLsbD_not, BitVec.getLsbD_twoPow]
    by_cases h : i = w - 1 - p
    · simp [h, inside]
    · simp only [h, written, decide_false, Bool.and_false, Bool.not_false, Bool.and_true, if_false]
      exact Bool.and_eq_left_iff_imp.mpr fun hv => decide_eq_true (BitVec.lt_of_getLsbD hv)

theorem getBit_setBit {w p q : Nat} (v : BitVec w) (b : Bool) (hp : p < w) (hq : q < w) :
    getBit (setBit v p b) q = if q = p then b else getBit v q := by
  rw [getBit_eq_getLsbD _ hq, getLsbD_setBit v b hp, ← getBit_eq_getLsbD v hq]
  exact ite_congr (propext (by omega)) (fun _ => rfl) (fun _ => rfl)

/-- Settles O6: both numberings of the written bus, at the written position and away from it. -/
theorem setBitWritesOnePositionOnly : Obligations.SetBitWritesOnePositionOnly := by
  intro w v p b hp
  refine ⟨getBit_eq_getLsbD v hp, ?_, ?_, fun q hq hne => ?_⟩
  · rw [getLsbD_setBit v b hp, if_pos rfl]
  · rw [getBit_setBit v b hp hp, if_pos rfl]
  · rw [getBit_setBit v b hp hq, if_neg hne]

/-! ## The tables (R71, R78, R80, R82) -/

theorem bounds_of_mem_pc2Table : ∀ e ∈ pc2Table, 1 ≤ e ∧ e ≤ 56 := by decide

theorem pc2Table_getD_mem {i : Nat} (hi : i < 48) : pc2Table.getD i 0 ∈ pc2Table := by
  rw [← List.getElem_eq_getD (h := hi)]
  exact List.getElem_mem hi

/-- R71: the positions PC-1 leaves out are the parity positions. -/
theorem not_mem_pc1Table_iff {v : Nat} (pos : 1 ≤ v) (le : v ≤ 64) : v ∉ pc1Table ↔ v % 8 = 0 := by
  have all : ∀ v < 65, 1 ≤ v → (v ∉ pc1Table ↔ v % 8 = 0) := by decide
  exact all v (Nat.lt_succ_of_le le) pos

/-- R78: the eight positions PC-2 leaves out. -/
theorem not_mem_pc2Table_iff {v : Nat} (pos : 1 ≤ v) (le : v ≤ 56) :
    v ∉ pc2Table ↔ v ∈ [9, 18, 22, 25, 35, 38, 43, 54] := by
  have all : ∀ v < 57, 1 ≤ v → (v ∉ pc2Table ↔ v ∈ [9, 18, 22, 25, 35, 38, 43, 54]) := by decide
  exact all v (Nat.lt_succ_of_le le) pos

/-- Settles O7: the shape of each table, and the positions two of them leave out. -/
theorem tablesHaveTheirStatedSizesBoundsAndGaps : Obligations.TablesHaveTheirStatedSizesBoundsAndGaps := by
  refine ⟨length_pc1Table, nodup_pc1Table, fun v hv => ?_, fun v => not_mem_pc1Table_iff, rfl, by decide,
    bounds_of_mem_pc2Table, fun v => not_mem_pc2Table_iff, rfl, by decide, rfl⟩
  obtain ⟨pos, le, -⟩ := bounds_of_mem_pc1Table v hv
  exact ⟨pos, le⟩

/-! ## The PC-2 network (R77, R78) -/

theorem getBit_pc2Net (cd : Bits56) {i : Nat} (hi : i < 48) : getBit (pc2Net cd) i = getBit cd (pc2Table.getD i 0 - 1) := by
  rw [pc2Net, getBit_permute, decide_eq_true hi, Bool.true_and]

theorem getLsbD_pc2Net (cd : Bits56) {i : Nat} (hi : i < 48) :
    (pc2Net cd).getLsbD (47 - i) = cd.getLsbD (56 - pc2Table.getD i 0) := by
  obtain ⟨pos, le⟩ := bounds_of_mem_pc2Table _ (pc2Table_getD_mem hi)
  exact getLsbD_permute cd hi pos le

/-- The entries of the first 24 outputs name positions of C'. -/
theorem pc2Table_getD_le {i : Nat} (hi : i < 24) : pc2Table.getD i 0 ≤ 28 := by
  have all : ∀ i < 24, pc2Table.getD i 0 ≤ 28 := by decide
  exact all i hi

/-- The entries of the last 24 outputs name positions of D'. -/
theorem lt_pc2Table_getD {i : Nat} (h24 : 24 ≤ i) (hi : i < 48) : 28 < pc2Table.getD i 0 := by
  have all : ∀ i < 48, 24 ≤ i → 28 < pc2Table.getD i 0 := by decide
  exact all i hi h24

/-- The input position of PC-2's output `i` lies on the recombined bus. -/
theorem pc2Table_getD_sub_one_lt {i : Nat} (hi : i < 48) : pc2Table.getD i 0 - 1 < 56 := by
  obtain ⟨-, le⟩ := bounds_of_mem_pc2Table _ (pc2Table_getD_mem hi)
  omega

theorem getBit_pc2Net_recomb_left (c d : Half) {i : Nat} (hi : i < 24) :
    getBit (pc2Net (recomb c d)) i = getBit c (pc2Table.getD i 0 - 1) := by
  have le := pc2Table_getD_le hi
  have pos := (bounds_of_mem_pc2Table _ (pc2Table_getD_mem (Nat.lt_trans hi (by decide)))).1
  rw [getBit_pc2Net _ (Nat.lt_trans hi (by decide)), getBit_recomb c d (by omega), if_pos (by omega)]

theorem getBit_pc2Net_recomb_right (c d : Half) {i : Nat} (h24 : 24 ≤ i) (hi : i < 48) :
    getBit (pc2Net (recomb c d)) i = getBit d (pc2Table.getD i 0 - 1 - 28) := by
  have lt := lt_pc2Table_getD h24 hi
  rw [getBit_pc2Net _ hi, getBit_recomb c d (pc2Table_getD_sub_one_lt hi), if_neg (by omega)]

/-- The network's part of round 0 of the textbook key. -/
theorem pc2Net_textbook : pc2Net 0xE19955FAACCF1E#56 = 0x1B02EFFC7072#48 := by
  have subkey := congrArg RoundOut.subkey roundF_textbook_zero
  have c : rotl28 0xF0CCAAF#28 (shiftAmount 0) = 0xE19955F#28 := congrArg RoundOut.c roundF_textbook_zero
  have d : rotl28 0x556678F#28 (shiftAmount 0) = 0xAACCF1E#28 := congrArg RoundOut.d roundF_textbook_zero
  rw [roundF, bshift, c, d] at subkey
  exact subkey

/-- Settles O9: the wiring in both numberings, and which half each output reads. -/
theorem pc2NetworkCopiesTheNamedHalfBits : Obligations.Pc2NetworkCopiesTheNamedHalfBits := by
  refine ⟨fun cd i hi => ⟨getBit_pc2Net cd hi, getLsbD_pc2Net cd hi⟩, fun c d d' i hi => ?_, fun c c' d i h24 hi => ?_,
    pc2Net_textbook⟩
  · rw [getBit_pc2Net_recomb_left c d hi, getBit_pc2Net_recomb_left c d' hi]
  · rw [getBit_pc2Net_recomb_right c d h24 hi, getBit_pc2Net_recomb_right c' d h24 hi]

/-! ## Split and recombination (R72, R76) -/

theorem getBit_recomb_left (c d : Half) {p : Nat} (hp : p < 28) : getBit (recomb c d) p = getBit c p := by
  rw [getBit_recomb c d (by omega), if_pos hp]

theorem getBit_recomb_right (c d : Half) {p : Nat} (hp : p < 28) : getBit (recomb c d) (28 + p) = getBit d p := by
  rw [getBit_recomb c d (by omega), if_neg (by omega), Nat.add_sub_cancel_left]

theorem recomb_split (v : Bits56) : recomb (splitC v) (splitD v) = v := by
  refine eq_of_getBit_eq fun p hp => ?_
  rw [getBit_recomb _ _ hp]
  split
  case isTrue h => exact getBit_splitC v h
  case isFalse h => rw [getBit_splitD v (by omega), Nat.add_sub_cancel' (by omega)]

theorem splitC_recomb (c d : Half) : splitC (recomb c d) = c :=
  eq_of_getBit_eq fun p hp => by rw [getBit_splitC _ hp, getBit_recomb_left c d hp]

theorem splitD_recomb (c d : Half) : splitD (recomb c d) = d :=
  eq_of_getBit_eq fun p hp => by rw [getBit_splitD _ hp, getBit_recomb_right c d hp]

/-- Settles O10: the order of the bits in source positions, from which each network undoes the other. -/
theorem splitAndRecombineAreInverse : Obligations.SplitAndRecombineAreInverse :=
  ⟨fun v _ hj => ⟨getBit_splitC v hj, getBit_splitD v hj⟩,
    fun c d _ hj => ⟨getBit_recomb_left c d hj, getBit_recomb_right c d hj⟩, recomb_split,
    fun c d => ⟨splitC_recomb c d, splitD_recomb c d⟩, by decide, by decide, by decide⟩

/-! ## Rotations (R74, R87) -/

/-- R74 in LSB-0 numbering. -/
theorem getLsbD_rotl28 (x : Half) {s j : Nat} (hs : s < 28) (hj : j < 28) :
    (rotl28 x s).getLsbD ((j + s) % 28) = x.getLsbD j := by
  have hm : (j + s) % 28 < 28 := Nat.mod_lt _ (by decide)
  rw [getLsbD_eq_getBit _ hm, getLsbD_eq_getBit _ hj, getBit_rotl28 x hs (by omega)]
  congr 1
  omega

/-- A half whose positions all hold one bit is the same after every rotation. -/
theorem rotl28_of_constant {x : Half} {b : Bool} (hx : ∀ p, p < 28 → getBit x p = b) {s : Nat} (hs : s < 28) :
    rotl28 x s = x :=
  eq_of_getBit_eq fun p hp => by rw [getBit_rotl28 x hs hp, hx _ (Nat.mod_lt _ (by decide)), hx p hp]

/-- Settles O11: R74 in both numberings, composition by adding the amounts, and the corner cases. -/
theorem rotateLeftIsACyclicShiftOfTwentyEight : Obligations.RotateLeftIsACyclicShiftOfTwentyEight := by
  refine ⟨fun x s j hs hj => getLsbD_rotl28 x (by omega) (by omega), fun x s p hs hp => getBit_rotl28 x (by omega) (by omega),
    fun x a b ha hb => rotl28_rotl28 x (by omega) (by omega), rotl28_zero, fun s hs => ⟨?_, ?_⟩, by decide, by decide, by decide⟩
  · exact rotl28_of_constant (b := true) (by decide) (by omega)
  · exact rotl28_of_constant (b := false) (by decide) (by omega)

/-- Settles O12: the two amounts add up to 28 or to 0, a whole turn. -/
theorem rotateRightUndoesRotateLeft : Obligations.RotateRightUndoesRotateLeft := by
  intro x s hs
  have turn : (s + (28 - s) % 28) % 28 = 0 := by omega
  rw [rotr28, rotl28_rotl28 x (by omega) (Nat.mod_lt _ (by decide)), turn, rotl28_zero]

end Sys2Proof.Machine
end

section
/-! PROOFS. Each bit of each subkey is one bit of the key (40_datapath.md R83 to R89): which one, and from that the rules on parity
bits, complementation and avalanche. -/

namespace Sys2Proof.Machine

/-! ## The closed form of a subkey (R84) -/

theorem ks_eq (k : Key) (r : Fin 16) :
    ks k r = pc2Net (recomb (rotatedBy (startC k) (r.val + 1)) (rotatedBy (startD k) (r.val + 1))) :=
  calc ks k r = pc2Net (recomb (carried k (r.val + 1)).1 (carried k (r.val + 1)).2) := by rw [carried_succ k r.isLt]; rfl
    _ = _ := by rw [carried_eq_rotatedBy k r.isLt]

/-- Settles O15: `rotatedBy` is the rotation by CUM modulo 28. -/
theorem scheduleHasItsClosedForm : Obligations.ScheduleHasItsClosedForm :=
  ⟨by decide, fun k _ hn => carried_eq_rotatedBy k hn, carried_sixteen, ks_eq⟩

/-! ## The key bit behind each subkey bit -/

/-- The source position of the key that output position `i` of PC-2 copies at round `r`: PC-2's entry names a position of a half,
the rotation by CUM moves it, and PC-1's entry names the key's position. -/
def keyPosition (r : Fin 16) (i : Nat) : Nat :=
  let p := pc2Table.getD i 0 - 1
  pc1Table.getD (if p < 28 then (p + cum (r.val + 1)) % 28 else 28 + (p - 28 + cum (r.val + 1)) % 28) 0 - 1

theorem getBit_rotatedBy (x : Half) (n : Nat) {p : Nat} (hp : p < 28) :
    getBit (rotatedBy x n) p = getBit x ((p + cum n) % 28) := by
  rw [rotatedBy, getBit_rotl28 x (Nat.mod_lt _ (by decide)) hp, Nat.add_mod_mod]

theorem getBit_startC (k : Key) {p : Nat} (hp : p < 28) : getBit (startC k) p = getBit k (pc1Table.getD p 0 - 1) := by
  rw [startC, getBit_splitC _ hp, getBit_pc1Net k (by omega)]

theorem getBit_startD (k : Key) {p : Nat} (hp : p < 28) : getBit (startD k) p = getBit k (pc1Table.getD (28 + p) 0 - 1) := by
  rw [startD, getBit_splitD _ hp, getBit_pc1Net k (by omega)]

theorem getBit_ks (k : Key) (r : Fin 16) {i : Nat} (hi : i < 48) : getBit (ks k r) i = getBit k (keyPosition r i) := by
  have hp := pc2Table_getD_sub_one_lt hi
  rw [ks_eq, getBit_pc2Net _ hi, keyPosition, getBit_recomb _ _ hp]
  split
  case isTrue h => rw [getBit_rotatedBy _ _ h, getBit_startC k (Nat.mod_lt _ (by decide))]
  case isFalse h => rw [getBit_rotatedBy _ _ (by omega), getBit_startD k (Nat.mod_lt _ (by decide))]

/-- Every position behind a subkey bit is an entry of PC-1, less one. -/
theorem keyPosition_eq (r : Fin 16) (i : Nat) : ∃ e ∈ pc1Table, keyPosition r i = e - 1 := by
  refine ⟨_, pc1Table_getD_mem ?_, rfl⟩
  have turn : ∀ m : Nat, m % 28 < 28 := fun m => Nat.mod_lt m (by decide)
  split
  · exact Nat.lt_trans (turn _) (by decide)
  · exact Nat.add_lt_add_left (turn _) 28

theorem keyPosition_lt (r : Fin 16) (i : Nat) : keyPosition r i < 64 := by
  obtain ⟨e, he, position⟩ := keyPosition_eq r i
  obtain ⟨-, le, -⟩ := bounds_of_mem_pc1Table e he
  omega

/-- The printed subkeys of the textbook key (V3). -/
def textbookSubkeys : List Subkey :=
  [0x1B02EFFC7072#48, 0x79AED9DBC9E5#48, 0x55FC8A42CF99#48, 0x72ADD6DB351D#48, 0x7CEC07EB53A8#48, 0x63A53E507B2F#48,
   0xEC84B7F618BC#48, 0xF78A3AC13BFB#48, 0xE0DBEBEDE781#48, 0xB1F347BA464F#48, 0x215FD3DED386#48, 0x7571F59467E9#48,
   0x97C5D1FABA41#48, 0x5F43B7F2E73A#48, 0xBF918D3D3F0A#48, 0xCB3D8B0E17F5#48]

/-- Settles O19: every bit of the printed subkeys is the bit of the textbook key that the wiring names. -/
theorem textbookKeyGivesItsSubkeys : Obligations.TextbookKeyGivesItsSubkeys := by
  have bits : ∀ r : Fin 16, ∀ i < 48,
      getBit 0x133457799BBCDFF1#64 (keyPosition r i) = getBit (textbookSubkeys.getD r.val 0#48) i := by decide
  exact List.map_congr_left fun r _ => eq_of_getBit_eq fun i hi => (getBit_ks _ r hi).trans (bits r i hi)

/-! ## Complementation (R89) -/

theorem ks_not (k : Key) (r : Fin 16) : ks (~~~k) r = ~~~(ks k r) :=
  eq_of_getBit_eq fun i hi => by
    rw [getBit_ks _ r hi, getBit_not k (keyPosition_lt r i), getBit_not _ hi, getBit_ks k r hi]

theorem ks_zero (r : Fin 16) : ks 0#64 r = 0#48 :=
  eq_of_getBit_eq fun i hi => by rw [getBit_ks _ r hi]; simp [getBit]

theorem ks_allOnes (r : Fin 16) : ks 0xFFFFFFFFFFFFFFFF#64 r = 0xFFFFFFFFFFFF#48 :=
  calc ks (~~~0#64) r = ~~~(ks 0#64 r) := ks_not 0#64 r
    _ = ~~~0#48 := by rw [ks_zero]

/-- Settles O17: each subkey bit is a key bit, so complementing the key complements it. -/
theorem complementedKeyComplementsEverySubkey : Obligations.ComplementedKeyComplementsEverySubkey :=
  ⟨ks_not, fun r => ⟨ks_zero r, ks_allOnes r⟩⟩

/-! ## Parity (R85) -/

/-- The key goes through PC-1 and nowhere else. -/
theorem ks_eq_of_pc1Net_eq {k k' : Key} (h : pc1Net k = pc1Net k') (r : Fin 16) : ks k r = ks k' r := by
  simp only [ks_eq, startC, startD, h]

theorem ks_xor_parityMask (k : Key) (q : BitVec 8) (r : Fin 16) : ks (k ^^^ parityMask q) r = ks k r :=
  ks_eq_of_pc1Net_eq (pc1Net_xor_parityMask k q) r

/-- The key of parity bits alone has the subkeys of the key 0. -/
theorem ks_parityBits (r : Fin 16) : ks 0x0101010101010101#64 r = 0#48 := by
  have zero : ∀ p < 64, p % 8 ≠ 7 → getBit 0x0101010101010101#64 p = getBit 0#64 p := by decide
  have same : pc1Net 0x0101010101010101#64 = pc1Net 0#64 := pc1Net_congr fun p notParity => by
    by_cases hp : p < 64
    · exact zero p hp notParity
    · rw [getBit_of_ge _ (Nat.le_of_not_lt hp), getBit_of_ge _ (Nat.le_of_not_lt hp)]
  rw [ks_eq_of_pc1Net_eq same, ks_zero]

/-- Settles O16: the printed keys are 0 or all ones, but for their parity bits. -/
theorem parityBitsChangeNoSubkey : Obligations.ParityBitsChangeNoSubkey := by
  refine ⟨ks_xor_parityMask, fun r => ⟨ks_parityBits r, ks_zero r⟩, fun r => ⟨?_, ks_allOnes r⟩⟩
  calc ks (~~~0x0101010101010101#64) r = ~~~(ks 0x0101010101010101#64 r) := ks_not _ r
    _ = ~~~0#48 := by rw [ks_parityBits]

/-! ## Avalanche (R86) -/

/-- A key with one bit flipped differs from the key at that position only. -/
theorem getBit_flip (k : Key) {p q : Nat} (hp : p < 64) (hq : q < 64) :
    getBit (k ^^^ setBit 0#64 p true) q = (getBit k q ^^ decide (q = p)) := by
  rw [getBit_xor, getBit_setBit _ _ hp hq]
  by_cases h : q = p
  · rw [if_pos h, decide_eq_true h]
  · rw [if_neg h, decide_eq_false h]
    simp [getBit]

/-- The source positions of the key that the subkey of round `r` holds. -/
def keyPositions (r : Fin 16) : List Nat := (List.range 48).map (keyPosition r)

/-- Flipping a key bit changes a subkey exactly when the subkey holds that bit. -/
theorem ks_flip_ne_iff (k : Key) {p : Nat} (hp : p < 64) (r : Fin 16) :
    ks (k ^^^ setBit 0#64 p true) r ≠ ks k r ↔ p ∈ keyPositions r := by
  have flipped : ∀ i < 48, getBit (ks (k ^^^ setBit 0#64 p true) r) i = (getBit (ks k r) i ^^ decide (keyPosition r i = p)) := by
    intro i hi
    rw [getBit_ks _ r hi, getBit_flip k hp (keyPosition_lt r i), getBit_ks k r hi]
  rw [keyPositions, List.mem_map]
  constructor
  · intro ne
    refine Classical.byContradiction fun absent => ne (eq_of_getBit_eq fun i hi => ?_)
    have elsewhere : keyPosition r i ≠ p := fun here => absent ⟨i, List.mem_range.mpr hi, here⟩
    rw [flipped i hi, decide_eq_false elsewhere, Bool.xor_false]
  · rintro ⟨i, hi, here⟩ eq
    have same := flipped i (List.mem_range.mp hi)
    rw [eq, decide_eq_true here, Bool.xor_true] at same
    exact (Bool.eq_not_self _).mp same

/-- The same positions as the bits of a number. -/
def keyMask (r : Fin 16) : Nat := (keyPositions r).foldr (fun p mask => 2 ^ p ||| mask) 0

theorem testBit_foldr_two_pow (positions : List Nat) (p : Nat) :
    (positions.foldr (fun q mask => 2 ^ q ||| mask) 0).testBit p = decide (p ∈ positions) := by
  induction positions with
  | nil => simp
  | cons q rest ih => rw [List.foldr_cons, Nat.testBit_or, ih, Nat.testBit_two_pow]; simp [eq_comm]

/-- The key bits of each subkey, round by round. -/
def keyMasks : List Nat :=
  [0x7F755B7F7F7F731F, 0x4F7F755B7F7F7F73, 0x7E374F7F7D5B7F7F, 0x7F7F7E374F7F7D5B, 0x7B667F7F7E3F4F7F, 0x6F7F7B66777F7E3F,
   0x7D5E6F7F7B6E777F, 0x3F7F7D5E6F7F7B6E, 0x7D3F7F7D566F7F7B, 0x7F777D3F7F7D566F, 0x2D7F7F777D377F7D, 0x7F7A2D7F7F7F7D37,
   0x7B1F7F7A2D7F7F7F, 0x7F7F7B1F7F7A2D7F, 0x5B7F7F7F731F7F7A, 0x755B7F7F7F731F7F]

theorem keyMask_eq : ∀ r : Fin 16, keyMask r = keyMasks.getD r.val 0 := by decide

theorem mem_keyPositions_iff (r : Fin 16) (p : Nat) : p ∈ keyPositions r ↔ (keyMasks.getD r.val 0).testBit p = true := by
  rw [← keyMask_eq, keyMask, testBit_foldr_two_pow, decide_eq_true_iff]

/-- How many subkeys hold the key bit at source position `p`: a fact of the wiring, of no key. -/
def subkeysHolding (p : Nat) : Nat := (allRounds.filter (fun r => (keyMasks.getD r.val 0).testBit p)).length

theorem subkeysChanged_eq (k : Key) {p : Nat} (hp : p < 64) : subkeysChanged k p = subkeysHolding p := by
  refine congrArg List.length (List.filter_congr fun r _ => ?_)
  rw [Bool.eq_iff_iff, decide_eq_true_iff, ks_flip_ne_iff k hp, mem_keyPositions_iff]

/-- How many subkeys hold each bit of the key, one row for each byte of it; the last bit of a byte is its parity bit. -/
def reachTable : List Nat :=
  [14, 15, 12, 14, 14, 14, 13, 0] ++
  [14, 13, 14, 13, 14, 13, 14, 0] ++
  [14, 15, 13, 14, 14, 14, 13, 0] ++
  [14, 13, 14, 13, 13, 14, 15, 0] ++
  [13, 15, 14, 13, 15, 13, 13, 0] ++
  [15, 12, 13, 15, 13, 14, 15, 0] ++
  [13, 15, 14, 12, 15, 13, 13, 0] ++
  [15, 12, 13, 15, 13, 14, 14, 0]

/-- R86's count, over the wiring. -/
theorem subkeysHolding_eq : ∀ p < 64, subkeysHolding p = reachTable.getD p 0 := by decide

theorem subkeysChanged_eq_reach (k : Key) {p : Nat} (hp : p < 64) : subkeysChanged k p = reachTable.getD p 0 :=
  (subkeysChanged_eq k hp).trans (subkeysHolding_eq p hp)

/-- The number of positions that reach `n` subkeys is the same for every key. -/
theorem filter_subkeysChanged_eq (k : Key) (n : Nat) :
    (List.range 64).filter (fun p => subkeysChanged k p == n) = (List.range 64).filter (fun p => reachTable.getD p 0 == n) :=
  List.filter_congr fun p hp => by rw [subkeysChanged_eq_reach k (List.mem_range.mp hp)]

theorem reachTable_bounds : ∀ p < 64, p % 8 ≠ 7 → 12 ≤ reachTable.getD p 0 ∧ reachTable.getD p 0 ≤ 15 := by decide

theorem reachTable_parity : ∀ p < 64, p % 8 = 7 → reachTable.getD p 0 = 0 := by decide

/-- Settles O18: a flipped bit changes the subkeys that hold it, so the counts are those of the wiring. -/
theorem everyNonParityKeyBitReachesTwelveToFifteenSubkeys :
    Obligations.EveryNonParityKeyBitReachesTwelveToFifteenSubkeys := by
  intro k
  simp only [filter_subkeysChanged_eq]
  refine ⟨fun p hp => ?_, fun p hp => ?_, by decide, by decide, by decide, by decide⟩
  · rw [subkeysChanged_eq_reach k hp]
    exact reachTable_bounds p hp
  · rw [subkeysChanged_eq_reach k hp]
    exact reachTable_parity p hp

end Sys2Proof.Machine
end

section
/-! PROOFS. The frame of each command (41_commands.md R97 to R103): what it reads of the ports, what it writes, and what doing it
again does. -/

namespace Sys2Proof.Machine

/-! ## The host's side of the state -/

/-- `s` with this on the host's side: the ports, whether an offer is held, and what the host drives next. -/
def setPorts (p : Pins) (held : Bool) (list : List Pins) (s : State) : State :=
  { s with pins := p, holding := held, host := list }

/-- R57: the host's side of the state is none of a command's business, but for KEY_IN in LDKEY and GEN. -/
theorem exec_setPorts {i : Instr} {s t : State} {p : Pins} (held : Bool) (list : List Pins)
    (key : p.keyIn = s.pins.keyIn ∨ (i ≠ .ldkey ∧ i ≠ .gen)) (h : exec i s = .next t) :
    exec i (setPorts p held list s) = .next (setPorts p held list t) := by
  cases exec_cases h with
  | nop => rfl
  | ldkey =>
    have same := key.resolve_right fun other => other.1 rfl
    rw [exec_ldkey, show (setPorts p held list s).pins.keyIn = s.pins.keyIn from same]
    rfl
  | stepUnkeyed hk => exact exec_step_unkeyed (s := setPorts p held list s) hk
  | stepOverrun hk hr => exact exec_step_overrun (s := setPorts p held list s) hk hr
  | stepRound r hk hr => exact exec_step_round (s := setPorts p held list s) hk hr
  | gen =>
    have same := key.resolve_right fun other => other.2 rfl
    rw [exec_gen, afterGen, show (setPorts p held list s).pins.keyIn = s.pins.keyIn from same]
    rfl
  | rdskUnwritten i hv => exact exec_rdsk_unwritten (s := setPorts p held list s) hv
  | rdskValid i hv => exact exec_rdsk_valid (s := setPorts p held list s) hv

/-- The frame reads CMD and KEY_IN on the ports, and nothing else of the host's side. -/
theorem accept_setPorts {s t : State} (held : Bool) (list : List Pins) (h : accept s = .next t) :
    accept (setPorts s.pins held list s) = .next (setPorts s.pins held list t) := by
  rcases accept_cases h with ⟨hf, rfl⟩ | ⟨hf, hd, rfl⟩ | ⟨i, hf, hd, hx⟩
  · exact accept_dropped hf
  · exact accept_reserved (s := setPorts s.pins held list s) hf hd
  · exact (accept_command (s := setPorts s.pins held list s) hf hd).trans (exec_setPorts held list (.inl rfl) hx)

/-- Settles O42: another KEY_IN is another host's side. -/
theorem keyInMattersOnlyToLoadKeyAndGenerate : Obligations.KeyInMattersOnlyToLoadKeyAndGenerate := by
  intro i s k ldkey gen
  obtain ⟨t, h, -⟩ := exec_effect i s
  obtain ⟨-, held, list, -⟩ := exec_keeps_ports h
  rw [h, mapNext_next]
  calc exec i { s with pins := { s.pins with keyIn := k } }
    _ = .next (setPorts { s.pins with keyIn := k } s.holding s.host t) := exec_setPorts _ _ (.inr ⟨ldkey, gen⟩) h
    _ = .next { t with pins := { s.pins with keyIn := k } } := by rw [← held, ← list]; rfl

/-! ## The halves (R75) -/

/-- What a STEP does to each half is fixed by that half, KEYED and ROUND. -/
theorem exec_step_halves_congr {s s' t t' : State} (hk : s.keyed = s'.keyed) (hr : s.round = s'.round)
    (h : exec .step s = .next t) (h' : exec .step s' = .next t') :
    (s.c = s'.c → t.c = t'.c) ∧ (s.d = s'.d → t.d = t'.d) := by
  cases exec_cases h with
  | stepUnkeyed unkeyed =>
    rw [exec_step_unkeyed (hk ▸ unkeyed)] at h'
    cases h'
    exact ⟨id, id⟩
  | stepOverrun keyed last =>
    rw [exec_step_overrun (hk ▸ keyed) (hr ▸ last)] at h'
    cases h'
    exact ⟨id, id⟩
  | stepRound r keyed now =>
    rw [exec_step_round (hk ▸ keyed) (hr ▸ now)] at h'
    cases h'
    exact ⟨congrArg (rotl28 · (shiftAmount r)), congrArg (rotl28 · (shiftAmount r))⟩

/-- Settles O14: the two states have the same KEYED, ROUND and one half. -/
theorem halvesNeverMix : Obligations.HalvesNeverMix :=
  ⟨fun s _ _ d _ h h' => (exec_step_halves_congr (s := s) (s' := { s with d := d }) rfl rfl h h').1 rfl,
    fun s _ _ c _ h h' => (exec_step_halves_congr (s := s) (s' := { s with c := c }) rfl rfl h h').2 rfl⟩

/-! ## The entry a STEP writes (R93) -/

theorem get_afterRound_self (s : State) (r : Fin 16) : (afterRound s r).sk.get r = (afterRound s r).sko :=
  Vector.getElem_set_self r.isLt

theorem get_afterRound_of_ne (s : State) {r j : Fin 16} (h : j ≠ r) : (afterRound s r).sk.get j = s.sk.get j :=
  Vector.getElem_set_ne r.isLt j.isLt fun same => h (Fin.ext same.symm)

theorem getLsbD_valid_afterRound (s : State) (r j : Fin 16) :
    (afterRound s r).valid.getLsbD j.val = (s.valid.getLsbD j.val || decide (j = r)) := by
  rw [afterRound_valid, BitVec.getLsbD_or, BitVec.getLsbD_twoPow]
  simp [Fin.ext_iff, eq_comm]

theorem afterRound_round_val {s : State} {r : Fin 16} (hr : s.round = r.castSucc) :
    (afterRound s r).round.val = s.round.val + 1 := by
  rw [val_of_round_eq hr, afterRound_round, Fin.val_succ]

/-! ## What a command writes (R97, R102, R124) -/

/-- No effect without a fault is a `raiseFault`: that leaves FAULT = 1. -/
theorem absurd_of_raiseFault {P : Prop} {e : Ecode} {s : State} (h : (raiseFault e s).fault = false) : P :=
  absurd h.symm Bool.false_ne_true

/-- Settles O25: the host's side and the command in progress are no command's to write, and the rest effect by effect. -/
theorem commandsWriteOnlyTheirMarkedState : Obligations.CommandsWriteOnlyTheirMarkedState := by
  intro i s t hf h noFault
  obtain ⟨pins, held, list, busy⟩ := exec_keeps_ports h
  have ecode : t.ecode = s.ecode := by
    rcases exec_keeps_or_raises h with ⟨-, kept⟩ | ⟨e, -, rfl⟩
    · exact kept
    · exact absurd_of_raiseFault noFault
  refine ⟨⟨ecode, busy, pins, held, list⟩, ?_⟩
  cases exec_cases h with
  | nop => rfl
  | ldkey => exact ⟨rfl, rfl, rfl, rfl, rfl, rfl, rfl⟩
  | stepUnkeyed => exact absurd_of_raiseFault noFault
  | stepOverrun => exact absurd_of_raiseFault noFault
  | stepRound r hk hr =>
    have now := val_of_round_eq hr
    refine ⟨rfl, afterRound_round_val hr, rfl, by rw [now]; rfl, fun j other => ?_, fun j own => ?_⟩
    · have ne : j ≠ r := fun same => other (by rw [same, now])
      rw [getLsbD_valid_afterRound, decide_eq_false ne, Bool.or_false]
      exact ⟨get_afterRound_of_ne s ne, rfl⟩
    · obtain rfl : j = r := Fin.ext (own.trans now)
      rw [getLsbD_valid_afterRound, decide_eq_true rfl, Bool.or_true]
      exact ⟨get_afterRound_self s j, rfl⟩
  | gen => exact ⟨rfl, rfl, rfl, rfl, rfl⟩
  | rdskUnwritten => exact absurd_of_raiseFault noFault
  | rdskValid => exact ⟨rfl, rfl, rfl, rfl, rfl, rfl, rfl, rfl⟩

/-- A command that brings FAULT from 0 to 1 abandons its other writes. -/
theorem exec_raises {i : Instr} {s t : State} (hf : s.fault = false) (h : exec i s = .next t) (ht : t.fault = true) :
    ∃ e, t = raiseFault e s := by
  rcases exec_keeps_or_raises h with ⟨kept, -⟩ | ⟨e, -, raised⟩
  · exact absurd (hf.symm.trans (kept.symm.trans ht)) Bool.false_ne_true
  · exact ⟨e, raised⟩

/-- Settles O26: a fault keeps ROUND, and each effect without one has a ROUND of its own. -/
theorem roundMovesOnlyByOneByLoadOrByGenerate : Obligations.RoundMovesOnlyByOneByLoadOrByGenerate := by
  intro i s t hf h
  refine ⟨fun fault => ?_, fun noFault => ?_⟩
  · obtain ⟨e, rfl⟩ := exec_raises hf h fault
    rfl
  · cases exec_cases h with
    | nop | rdskValid => exact ⟨nofun, nofun, nofun, fun _ _ _ => rfl⟩
    | ldkey => exact ⟨nofun, fun _ => rfl, nofun, fun _ other => absurd rfl other⟩
    | stepRound r hk hr => exact ⟨fun _ => afterRound_round_val hr, nofun, nofun, fun other => absurd rfl other⟩
    | gen => exact ⟨nofun, nofun, fun _ => rfl, fun _ _ other => absurd rfl other⟩
    | stepUnkeyed | stepOverrun | rdskUnwritten => exact absurd_of_raiseFault noFault

/-- Settles O27: of the effects that write VALID, LDKEY clears it, GEN is one of the two allowed, and STEP sets one bit. -/
theorem entriesAppearOnlyInRoundOrder : Obligations.EntriesAppearOnlyInRoundOrder := by
  intro i s t r _ h before after
  have kept : s.valid.getLsbD r.val ≠ true := fun already => Bool.false_ne_true (before.symm.trans already)
  cases exec_cases h with
  | nop | stepUnkeyed | stepOverrun | rdskUnwritten | rdskValid => exact absurd after kept
  | ldkey => exact absurd after (by simp)
  | stepRound r' hk hr =>
    rw [getLsbD_valid_afterRound, before, Bool.false_or, decide_eq_true_iff] at after
    exact .inr ⟨rfl, after ▸ hr⟩
  | gen => exact .inl rfl

/-- Settles O31: the first thing LDKEY does to an old bank is to make it unreadable. -/
theorem newKeyDiscardsTheOldSchedule : Obligations.NewKeyDiscardsTheOldSchedule :=
  fun s _ => ⟨afterLdkey s, exec_ldkey_afterLdkey s, rfl, rfl, fun i => exec_rdsk_unwritten (entryValid_of_cleared rfl i)⟩

/-! ## Faults (R103, R106) -/

@[simp] theorem afterGen_fault (s : State) : (afterGen s).fault = s.fault := rfl
@[simp] theorem afterGen_ecode (s : State) : (afterGen s).ecode = s.ecode := rfl

/-- While a round is left ROUND is below 16. -/
theorem round_ne_sixteen {s : State} {r : Fin 16} (hr : s.round = r.castSucc) : s.round ≠ 16 := fun last =>
  have sixteen : r.val = 16 := (val_of_round_eq hr).symm.trans (congrArg Fin.val last)
  Nat.ne_of_lt r.isLt sixteen

/-- Settles O35: each fault is the fault of one effect, with that effect's condition. -/
theorem eachFaultIsRaisedExactlyOnItsCondition : Obligations.EachFaultIsRaisedExactlyOnItsCondition := by
  refine ⟨fun _ => accept_dropped, fun s t hf he h => ?_, rfl, rfl, rfl, rfl, rfl, Ecode.code_le⟩
  rcases accept_cases h with ⟨dropped, -⟩ | ⟨-, hd, rfl⟩ | ⟨i, -, hd, hx⟩
  · exact absurd (hf.symm.trans dropped) Bool.false_ne_true
  · simp [hd]
  · cases exec_cases hx with
    | nop => simp [hd, hf, he]
    | ldkey => simp [hd, hf, he]
    | stepUnkeyed hk => simp [hd, hk]
    | stepOverrun hk hr => simp [hd, hk, hr]
    | stepRound r hk hr =>
      have notLast : s.round ≠ 16 := round_ne_sixteen hr
      simp [hd, hf, he, hk, notLast]
    | gen => simp [hd, hf, he]
    | rdskUnwritten i hv =>
      unfold entryValid at hv
      simp [hd, hv]
    | rdskValid i hv =>
      unfold entryValid at hv
      simp [hd, hf, he, hv]

/-! ## Doing it again (R48) -/

/-- GEN reads nothing it writes. -/
theorem exec_gen_twice (s : State) : exec .gen (afterGen s) = .next (afterGen s) := by
  rw [exec_gen, afterGen_eq (afterGen s), afterGen_eq s]

/-- A command other than STEP that raised no fault changes nothing more the second time. -/
theorem exec_twice {i : Instr} {s t : State} (hi : i ≠ .step) (h : exec i s = .next t) (noFault : t.fault = false) :
    exec i t = .next t := by
  cases exec_cases h with
  | nop => exact exec_nop s
  | ldkey => exact exec_ldkey_twice s
  | stepUnkeyed | stepOverrun | stepRound => exact absurd rfl hi
  | gen => exact exec_gen_twice s
  | rdskUnwritten => exact absurd_of_raiseFault noFault
  | rdskValid i hv => exact exec_rdsk_valid (s := driveSko (readEntry s i) i s) hv

theorem accept_twice {s t : State} {i : Instr} (hd : decode s.pins.cmd = some i) (hi : i ≠ .step) (h : accept s = .next t) :
    accept t = .next t := by
  cases ht : t.fault with
  | true => exact accept_dropped ht
  | false =>
    obtain ⟨pins, -⟩ := accept_keeps_ports h
    rcases accept_cases h with ⟨-, rfl⟩ | ⟨-, -, rfl⟩ | ⟨j, -, hd', hx⟩
    · exact h
    · exact absurd_of_raiseFault ht
    · obtain rfl : i = j := Option.some.inj (hd.symm.trans hd')
      exact (accept_command ht (pins ▸ hd)).trans (exec_twice hi hx ht)

/-- A STEP after a STEP raises a fault or moves ROUND. -/
theorem exec_step_ne {s t : State} (hf : s.fault = false) (h : exec .step s = .next t) : t ≠ s := by
  intro same
  cases exec_cases h with
  | stepUnkeyed | stepOverrun => exact absurd_of_raiseFault (same ▸ hf)
  | stepRound r hk hr =>
    have moved := afterRound_round_val hr
    rw [same] at moved
    exact Nat.succ_ne_self _ moved.symm

/-- Settles O32: four commands read nothing they write, and STEP moves ROUND or faults. -/
theorem allCommandsButStepAreIdempotent : Obligations.AllCommandsButStepAreIdempotent := by
  refine ⟨fun s t i hd hi h => accept_twice hd hi h, fun s r hf hc hk hr => ?_⟩
  have word : decode s.pins.cmd = some .step := by rw [hc]; rfl
  obtain ⟨u, hu, -⟩ := exec_effect .step (afterRound s r)
  exact ⟨afterRound s r, u, (accept_command hf word).trans (exec_step_round hk hr),
    (accept_command (s := afterRound s r) hf word).trans hu, exec_step_ne hf hu⟩

end Sys2Proof.Machine
end

section
/-! PROOFS. The invariants (10_state.md R36): each command keeps them, so each step and each clock edge does. -/

namespace Sys2Proof.Machine

/-! ## The schedule of one key -/

/-- A round on the schedule of `k` gives the next halves of `k`, and its subkey of that round. -/
theorem roundF_of_scheduleOf {k : Key} {s : State} {r : Fin 16} (hr : s.round = r.castSucc) (hs : ScheduleOf k s) :
    roundF s.c s.d r =
      { c := rotatedBy (startC k) (r.val + 1), d := rotatedBy (startD k) (r.val + 1), subkey := ks k r } := by
  obtain ⟨hc, hd, -⟩ := hs
  have halves := carried_eq_rotatedBy k (Nat.le_of_lt r.isLt)
  have next := carried_eq_rotatedBy k r.isLt
  rw [val_of_round_eq hr] at hc hd
  rw [hc, hd]
  have round := roundF_carried k r.isLt
  rw [halves, next] at round
  exact round

theorem scheduleOf_afterLdkey (s : State) : ScheduleOf s.pins.keyIn (afterLdkey s) where
  c_eq := (rotatedBy_zero _).symm
  d_eq := (rotatedBy_zero _).symm
  entry_eq _ before := absurd before (Nat.not_lt_zero _)

theorem scheduleOf_afterGen (s : State) : ScheduleOf s.pins.keyIn (afterGen s) := by
  rw [afterGen_eq]
  exact ⟨(rotatedBy_sixteen _).symm, (rotatedBy_sixteen _).symm, fun r _ => Vector.getElem_ofFn r.isLt⟩

theorem scheduleOf_afterRound {k : Key} {s : State} {r : Fin 16} (hr : s.round = r.castSucc) (hs : ScheduleOf k s) :
    ScheduleOf k (afterRound s r) := by
  have round := roundF_of_scheduleOf hr hs
  refine ⟨congrArg RoundOut.c round, congrArg RoundOut.d round, fun j hj => ?_⟩
  rw [afterRound_round_val hr] at hj
  rcases Nat.lt_succ_iff_lt_or_eq.mp hj with earlier | now
  · have other : r.val ≠ j.val := fun same => Nat.ne_of_gt earlier (by rw [val_of_round_eq hr, same])
    exact (Vector.getElem_set_ne r.isLt j.isLt other).trans (hs.entry_eq j earlier)
  · obtain rfl : j = r := Fin.ext (now.trans (val_of_round_eq hr))
    exact (Vector.getElem_set_self j.isLt).trans (by rw [round])

/-- A command that loads no key keeps the schedule that of the same key. -/
theorem scheduleOf_exec {i : Instr} {s t : State} {k : Key} (ldkey : i ≠ .ldkey) (gen : i ≠ .gen) (hs : ScheduleOf k s)
    (h : exec i s = .next t) : ScheduleOf k t := by
  cases exec_cases h with
  | nop => exact hs
  | ldkey => exact absurd rfl ldkey
  | gen => exact absurd rfl gen
  | stepRound r hk hr => exact scheduleOf_afterRound hr hs
  | stepUnkeyed | stepOverrun | rdskUnwritten | rdskValid => exact ⟨hs.c_eq, hs.d_eq, hs.entry_eq⟩

/-- Settles O47: LDKEY and GEN start from KEY_IN, and STEP goes one round on. -/
theorem scheduleIsThatOfTheLastKeyLoaded : Obligations.ScheduleIsThatOfTheLastKeyLoaded := by
  refine ⟨fun i s t _ loads h => ?_, fun i s t k _ ldkey gen hs h => scheduleOf_exec ldkey gen hs h⟩
  rcases loads with rfl | rfl
  · cases h
    exact scheduleOf_afterLdkey s
  · cases h
    exact scheduleOf_afterGen s

/-! ## Commands keep the invariants -/

/-- The valid bits of a keyed engine, after one more round. -/
theorem valid_afterRound {s : State} {r : Fin 16} (hr : s.round = r.castSucc)
    (valid : s.valid = BitVec.ofNat 16 (2 ^ s.round.val - 1)) :
    (afterRound s r).valid = BitVec.ofNat 16 (2 ^ (afterRound s r).round.val - 1) := by
  have all : ∀ r : Fin 16,
      BitVec.ofNat 16 (2 ^ r.val - 1) ||| BitVec.twoPow 16 r.val = BitVec.ofNat 16 (2 ^ (r.val + 1) - 1) := by decide
  rw [afterRound_valid, valid, afterRound_round_val hr, val_of_round_eq hr, all]

/-- R36 says nothing of the host's side, nor of the command in progress. -/
theorem inv_of_sameRegisters {s : State} (h : Inv s) (busy : Option InFlight) (p : Pins) (held : Bool) (list : List Pins) :
    Inv { s with inFlight := busy, pins := p, holding := held, host := list } where
  unkeyed := h.unkeyed
  valid_eq := h.valid_eq
  schedule hk :=
    have ⟨k, hs⟩ := h.schedule hk
    ⟨k, hs.c_eq, hs.d_eq, hs.entry_eq⟩
  fault_iff := h.fault_iff
  sko_current := h.sko_current

/-- The reset state, whatever the host drives (R39). -/
theorem inv_resetEvent (p : Pins) (list : List Pins) : Inv (resetEvent p list) where
  unkeyed _ := ⟨rfl, rfl⟩
  valid_eq := nofun
  schedule := nofun
  fault_iff := ⟨fun _ => rfl, fun _ => rfl⟩
  sko_current := nofun

theorem inv_raiseFault {e : Ecode} {s : State} (he : e ≠ .noFault) (h : Inv s) : Inv (raiseFault e s) where
  unkeyed := h.unkeyed
  valid_eq := h.valid_eq
  schedule hk :=
    have ⟨k, hs⟩ := h.schedule hk
    ⟨k, hs.c_eq, hs.d_eq, hs.entry_eq⟩
  fault_iff := ⟨nofun, fun code => absurd code he⟩
  sko_current := h.sko_current

theorem inv_afterLdkey {s : State} (h : Inv s) : Inv (afterLdkey s) where
  unkeyed := nofun
  valid_eq _ := rfl
  schedule _ := ⟨s.pins.keyIn, scheduleOf_afterLdkey s⟩
  fault_iff := h.fault_iff
  sko_current := nofun

theorem inv_afterGen {s : State} (h : Inv s) : Inv (afterGen s) where
  unkeyed := nofun
  valid_eq _ := rfl
  schedule _ := ⟨s.pins.keyIn, scheduleOf_afterGen s⟩
  fault_iff := h.fault_iff
  sko_current _ := ⟨entryValid_of_full rfl 15#4, rfl⟩

theorem inv_afterRound {s : State} {r : Fin 16} (hk : s.keyed = true) (hr : s.round = r.castSucc) (h : Inv s) :
    Inv (afterRound s r) where
  unkeyed unkeyed := absurd (unkeyed.symm.trans hk) Bool.false_ne_true
  valid_eq _ := valid_afterRound hr (h.valid_eq hk)
  schedule _ :=
    have ⟨k, hs⟩ := h.schedule hk
    ⟨k, scheduleOf_afterRound hr hs⟩
  fault_iff := h.fault_iff
  sko_current _ := ⟨entryValid_afterRound s r, (readEntry_afterRound s r).symm⟩

theorem inv_driveSko {s : State} {i : BankIdx} (hv : entryValid s i = true) (h : Inv s) :
    Inv (driveSko (readEntry s i) i s) where
  unkeyed := h.unkeyed
  valid_eq := h.valid_eq
  schedule hk :=
    have ⟨k, hs⟩ := h.schedule hk
    ⟨k, hs.c_eq, hs.d_eq, hs.entry_eq⟩
  fault_iff := h.fault_iff
  sko_current _ := ⟨hv, rfl⟩

theorem inv_exec {i : Instr} {s t : State} (h : Inv s) (hx : exec i s = .next t) : Inv t := by
  cases exec_cases hx with
  | nop => exact h
  | ldkey => exact inv_afterLdkey h
  | stepUnkeyed | stepOverrun | rdskUnwritten => exact inv_raiseFault (by decide) h
  | stepRound r hk hr => exact inv_afterRound hk hr h
  | gen => exact inv_afterGen h
  | rdskValid i hv => exact inv_driveSko hv h

theorem inv_accept {s t : State} (h : Inv s) (ha : accept s = .next t) : Inv t := by
  rcases accept_cases ha with ⟨-, rfl⟩ | ⟨-, -, rfl⟩ | ⟨i, -, -, hx⟩
  · exact h
  · exact inv_raiseFault (by decide) h
  · exact inv_exec h hx

/-! ## Steps and clock edges keep them -/

theorem inv_present {s : State} (h : Inv s) : Inv (present s) := by
  rw [present_eq]
  exact inv_of_sameRegisters h s.inFlight _ _ _

/-- Settles O45: a step resets the engine, changes the host's side only, or is one run of the frame. -/
theorem everyStepKeepsTheInvariants : Obligations.EveryStepKeepsTheInvariants := by
  intro s t h hstep
  cases step_cases hstep with
  | reset p list => exact inv_resetEvent p list
  | completed f u hi hn ha =>
    have done : Inv u := inv_accept (inv_of_sameRegisters h none f.sampled s.holding s.host) ha
    exact inv_of_sameRegisters done u.inFlight s.pins u.holding u.host
  | accepted t hi hn ho ha =>
    have present := inv_present h
    exact inv_accept (inv_of_sameRegisters present _ _ false _) ha
  | noOffer => exact inv_present h

/-- With FAULT = 1 the command offered is dropped at the acceptance edge (R113). -/
theorem begin_dropped {s : State} (hf : s.fault = true) : begin s = s := by rw [begin, if_pos hf]

/-- The state an acceptance leaves: the command in progress, with the state's own ports and the command's latency recorded. -/
def recorded (s : State) : State :=
  { s with inFlight := some { sampled := s.pins, cyclesLeft := latencyOf (decode s.pins.cmd) } }

/-- With FAULT = 0 it is recorded (R125, R126). -/
theorem begin_records {s : State} (hf : s.fault = false) : begin s = recorded s := by
  rw [begin, if_neg (by simp [hf]), recorded]

theorem inv_begin {s : State} (h : Inv s) : Inv (begin s) := by
  cases hf : s.fault with
  | true => rwa [begin_dropped hf]
  | false =>
    rw [begin_records hf]
    exact inv_of_sameRegisters h _ s.pins s.holding s.host

theorem inv_tick {s t : State} (h : Inv s) (htick : tick s = .next t) : Inv t := by
  cases tick_cases htick with
  | reset p list => exact inv_resetEvent p list
  | completed f u hi hn hc ha =>
    have done : Inv u := inv_accept (inv_of_sameRegisters (inv_present h) none f.sampled _ _) ha
    exact inv_of_sameRegisters done u.inFlight _ u.holding u.host
  | counted => exact inv_of_sameRegisters (inv_present h) _ _ _ _
  | begun => exact inv_begin (inv_of_sameRegisters (inv_present h) _ _ false _)
  | noOffer => exact inv_present h

theorem readyWhenFaulted_of_idle {s : State} (hi : s.inFlight = none) : ReadyWhenFaulted s := by
  intro _
  rw [cmdReady, hi]
  rfl

theorem readyWhenFaulted_of_noFault {s : State} (hf : s.fault = false) : ReadyWhenFaulted s :=
  fun fault => absurd (hf.symm.trans fault) Bool.false_ne_true

/-- A command is in progress only while FAULT = 0. -/
theorem noFault_of_busy {s : State} {f : InFlight} (h : ReadyWhenFaulted s) (hi : s.inFlight = some f) : s.fault = false := by
  refine Bool.eq_false_iff.mpr fun fault => ?_
  have ready := h fault
  rw [cmdReady, hi] at ready
  exact Bool.false_ne_true ready

theorem readyWhenFaulted_begin {s : State} (hi : s.inFlight = none) : ReadyWhenFaulted (begin s) := by
  cases hf : s.fault with
  | true =>
    rw [begin_dropped hf]
    exact readyWhenFaulted_of_idle hi
  | false =>
    rw [begin_records hf]
    exact readyWhenFaulted_of_noFault hf

theorem readyWhenFaulted_tick {s t : State} (h : ReadyWhenFaulted s) (htick : tick s = .next t) : ReadyWhenFaulted t := by
  cases tick_cases htick with
  | reset => exact readyWhenFaulted_of_idle rfl
  | completed f u hi hn hc ha =>
    obtain ⟨-, -, -, idle⟩ := accept_keeps_ports ha
    exact readyWhenFaulted_of_idle idle
  | counted f hi => exact readyWhenFaulted_of_noFault ((present_fault s).trans (noFault_of_busy h hi))
  | begun hi => exact readyWhenFaulted_begin ((present_inFlight s).trans hi)
  | noOffer hi => exact readyWhenFaulted_of_idle ((present_inFlight s).trans hi)

/-- Settles O46: a command is in progress only from an edge at which FAULT was 0, and a fault comes at its last edge only. -/
theorem everyClockEdgeKeepsTheInvariants : Obligations.EveryClockEdgeKeepsTheInvariants :=
  fun _ _ h ready htick => ⟨inv_tick h htick, readyWhenFaulted_tick ready htick⟩

/-- Settles O44: the reset state is the reset event of a host that drives nothing. -/
theorem resetEstablishesTheInvariants : Obligations.ResetEstablishesTheInvariants :=
  ⟨inv_resetEvent Pins.idle [], fun _ => rfl⟩

end Sys2Proof.Machine
end

section
/-! PROOFS. State with no value is never read (10_state.md R38, R101): two states that agree but for it stay so, command by command
and step by step, and show the same. -/

namespace Sys2Proof.Machine

/-! ## What is shown -/

theorem visibleSubkey_of_agree {s t : State} (h : Agree s t) : visibleSubkey s = visibleSubkey t := by
  unfold visibleSubkey
  cases shown : s.skoValid with
  | false => rw [← h.skoValid, shown]; rfl
  | true =>
    obtain ⟨sko, index⟩ := h.sko shown
    rw [← h.skoValid, shown, sko, index]

theorem observe_of_agree {s t : State} (h : Agree s t) : observe s = observe t := by
  rw [observe, observe, visibleSubkey_of_agree h, status_congr h.keyed h.round h.valid h.fault h.ecode h.skoValid]

theorem entryValid_of_agree {s t : State} (h : Agree s t) (i : BankIdx) : entryValid s i = entryValid t i := by
  rw [entryValid, entryValid, h.valid]

/-! ## The writes of the commands -/

theorem agree_setPorts {s t : State} (h : Agree s t) (p : Pins) (held : Bool) (list : List Pins) :
    Agree (setPorts p held list s) (setPorts p held list t) :=
  ⟨h.keyed, h.round, h.valid, h.fault, h.ecode, h.skoValid, h.inFlight, rfl, rfl, rfl, h.halves, h.entries, h.sko⟩

theorem agree_drive {s t : State} (h : Agree s t) (p : Pins) (list : List Pins) : Agree (drive p list s) (drive p list t) :=
  ⟨h.keyed, h.round, h.valid, h.fault, h.ecode, h.skoValid, h.inFlight, rfl, h.holding, rfl, h.halves, h.entries, h.sko⟩

theorem agree_takeOffer {s t : State} (h : Agree s t) : Agree (takeOffer s) (takeOffer t) :=
  ⟨h.keyed, h.round, h.valid, h.fault, h.ecode, h.skoValid, h.inFlight, h.pins, rfl, h.host, h.halves, h.entries, h.sko⟩

theorem agree_atCompletion {s t : State} (h : Agree s t) (f : InFlight) : Agree (atCompletion f s) (atCompletion f t) :=
  ⟨h.keyed, h.round, h.valid, h.fault, h.ecode, h.skoValid, rfl, rfl, h.holding, h.host, h.halves, h.entries, h.sko⟩

theorem agree_raiseFault {s t : State} (h : Agree s t) (e : Ecode) : Agree (raiseFault e s) (raiseFault e t) :=
  ⟨h.keyed, h.round, h.valid, rfl, rfl, h.skoValid, h.inFlight, h.pins, h.holding, h.host, h.halves, h.entries, h.sko⟩

theorem afterLdkey_c (s : State) : (afterLdkey s).c = startC s.pins.keyIn := rfl

theorem afterLdkey_d (s : State) : (afterLdkey s).d = startD s.pins.keyIn := rfl

/-- LDKEY gives C and D the key's value, and takes every other value away. -/
theorem agree_afterLdkey {s t : State} (h : Agree s t) : Agree (afterLdkey s) (afterLdkey t) where
  keyed := rfl
  round := rfl
  valid := rfl
  fault := h.fault
  ecode := h.ecode
  skoValid := rfl
  inFlight := h.inFlight
  pins := h.pins
  holding := h.holding
  host := h.host
  halves _ := by
    rw [afterLdkey_c, afterLdkey_c, afterLdkey_d, afterLdkey_d, h.pins]
    exact ⟨rfl, rfl⟩
  entries i valid := absurd ((entryValid_of_cleared rfl i).symm.trans valid) Bool.false_ne_true
  sko := nofun

/-- GEN gives all of it the key's value. -/
theorem agree_afterGen {s t : State} (h : Agree s t) : Agree (afterGen s) (afterGen t) := by
  rw [afterGen_eq, afterGen_eq, h.pins]
  exact ⟨rfl, rfl, rfl, h.fault, h.ecode, rfl, h.inFlight, rfl, h.holding, h.host, fun _ => ⟨rfl, rfl⟩, fun _ _ => rfl,
    fun _ => ⟨rfl, rfl⟩⟩

theorem readEntry_afterRound_eq (s : State) (r : Fin 16) (i : BankIdx) :
    readEntry (afterRound s r) i = if i.toFin = r then (roundF s.c s.d r).subkey else readEntry s i := by
  split
  · next own => subst own; exact get_afterRound_self s i.toFin
  · next other => exact get_afterRound_of_ne s other

theorem entryValid_afterRound_eq (s : State) (r : Fin 16) (i : BankIdx) :
    entryValid (afterRound s r) i = (entryValid s i || decide (i.toFin = r)) :=
  getLsbD_valid_afterRound s r i.toFin

/-- A round reads C and D, which have a value once KEYED = 1. -/
theorem agree_afterRound {s t : State} (h : Agree s t) (hk : s.keyed = true) (r : Fin 16) :
    Agree (afterRound s r) (afterRound t r) := by
  obtain ⟨c, d⟩ := h.halves hk
  have round : roundF s.c s.d r = roundF t.c t.d r := by rw [c, d]
  refine ⟨h.keyed, ?round, ?valid, h.fault, h.ecode, ?skoValid, h.inFlight, h.pins, h.holding, h.host, fun _ => ?halves,
    fun i valid => ?entries, fun _ => ?sko⟩
  case round => rw [afterRound_round, afterRound_round]
  case skoValid => rw [afterRound_skoValid, afterRound_skoValid]
  case valid => rw [afterRound_valid, afterRound_valid, h.valid]
  case halves =>
    rw [afterRound_c, afterRound_c, afterRound_d, afterRound_d, round]
    exact ⟨rfl, rfl⟩
  case entries =>
    rw [entryValid_afterRound_eq, Bool.or_eq_true, decide_eq_true_iff] at valid
    rw [readEntry_afterRound_eq, readEntry_afterRound_eq, round]
    exact ite_congr rfl (fun _ => rfl) (fun other => h.entries i (valid.resolve_right other))
  case sko =>
    rw [afterRound_sko, afterRound_sko, afterRound_skoIdx, afterRound_skoIdx, round]
    exact ⟨rfl, rfl⟩

/-- RDSK reads an entry whose valid bit says that it has a value. -/
theorem agree_driveSko {s t : State} {i : BankIdx} (h : Agree s t) (hv : entryValid s i = true) :
    Agree (driveSko (readEntry s i) i s) (driveSko (readEntry t i) i t) :=
  ⟨h.keyed, h.round, h.valid, h.fault, h.ecode, rfl, h.inFlight, h.pins, h.holding, h.host, h.halves, h.entries,
    fun _ => ⟨h.entries i hv, rfl⟩⟩

/-! ## Commands, the frame and the step -/

/-- Each effect's condition speaks of state that agrees, so both sides have the same effect. -/
theorem agree_exec {i : Instr} {s t s' t' : State} (h : Agree s t) (hs : exec i s = .next s') (ht : exec i t = .next t') :
    Agree s' t' := by
  cases exec_cases hs with
  | nop => cases ht; exact h
  | ldkey => cases ht; exact agree_afterLdkey h
  | gen => cases ht; exact agree_afterGen h
  | stepUnkeyed hk =>
    rw [exec_step_unkeyed (h.keyed ▸ hk)] at ht
    cases ht
    exact agree_raiseFault h .noKey
  | stepOverrun hk hr =>
    rw [exec_step_overrun (h.keyed ▸ hk) (h.round ▸ hr)] at ht
    cases ht
    exact agree_raiseFault h .roundOverrun
  | stepRound r hk hr =>
    rw [exec_step_round (h.keyed ▸ hk) (h.round ▸ hr)] at ht
    cases ht
    exact agree_afterRound h hk r
  | rdskUnwritten i hv =>
    rw [exec_rdsk_unwritten (entryValid_of_agree h i ▸ hv)] at ht
    cases ht
    exact agree_raiseFault h .skUnwritten
  | rdskValid i hv =>
    rw [exec_rdsk_valid (entryValid_of_agree h i ▸ hv)] at ht
    cases ht
    exact agree_driveSko h hv

theorem agree_accept {s t s' t' : State} (h : Agree s t) (hs : accept s = .next s') (ht : accept t = .next t') :
    Agree s' t' := by
  rcases accept_cases hs with ⟨hf, rfl⟩ | ⟨hf, hd, rfl⟩ | ⟨i, hf, hd, hx⟩
  · rw [accept_dropped (h.fault ▸ hf)] at ht
    cases ht
    exact h
  · rw [accept_reserved (h.fault ▸ hf) (h.pins ▸ hd)] at ht
    cases ht
    exact agree_raiseFault h .illegalCmd
  · rw [accept_command (h.fault ▸ hf) (h.pins ▸ hd)] at ht
    exact agree_exec h hx ht

theorem agree_present {s t : State} (h : Agree s t) : Agree (present s) (present t) := by
  have effect := present_effect s
  generalize present s = u at effect ⊢
  cases effect with
  | nothing hh =>
    rw [present_nil (h.host ▸ hh)]
    exact h
  | waiting p list ho hh hv =>
    rw [present_waiting (h.holding ▸ ho) (h.host ▸ hh) hv]
    exact h
  | held p list ho hh hv =>
    rw [present_held (h.holding ▸ ho) (h.host ▸ hh) hv, ← h.pins]
    exact agree_drive h _ list
  | fresh p list ho hh =>
    rw [present_fresh (h.holding ▸ ho) (h.host ▸ hh)]
    exact agree_setPorts h p p.cmdValid list

theorem agree_step {s t s' t' : State} (h : Agree s t) (hs : step s = .next s') (ht : step t = .next t') : Agree s' t' := by
  have noRst (hn : NoRstNow s) : NoRstNow t := fun p list hh => hn p list (h.host.trans hh)
  cases step_cases hs with
  | reset p list hh hr =>
    rw [step_reset (h.host ▸ hh) hr] at ht
    cases ht
    exact ⟨rfl, rfl, rfl, rfl, rfl, rfl, rfl, rfl, rfl, rfl, fun _ => ⟨rfl, rfl⟩, fun _ _ => rfl, fun _ => ⟨rfl, rfl⟩⟩
  | completed f u hi hn ha =>
    obtain ⟨u', ha'⟩ := accept_next (atCompletion f t)
    rw [step_busy (h.inFlight ▸ hi) (noRst hn), complete_of_accept ha', ← h.pins] at ht
    cases ht
    have done := agree_accept (agree_atCompletion h f) ha ha'
    exact ⟨done.keyed, done.round, done.valid, done.fault, done.ecode, done.skoValid, done.inFlight, rfl, done.holding,
      done.host, done.halves, done.entries, done.sko⟩
  | accepted _ hi hn ho ha =>
    have shown := agree_present h
    rw [step_accepts (h.inFlight ▸ hi) (noRst hn) (shown.holding ▸ ho)] at ht
    exact agree_accept (agree_takeOffer shown) ha ht
  | noOffer hi hn ho =>
    have shown := agree_present h
    rw [step_idle (h.inFlight ▸ hi) (noRst hn) (shown.holding ▸ ho)] at ht
    cases ht
    exact shown

/-- Settles O43: agreement is kept by a step, and states that agree show the same. -/
theorem stateWithNoValueIsNeverObserved : Obligations.StateWithNoValueIsNeverObserved := by
  refine ⟨fun s t => observe_of_agree, fun s t s' t' h hs ht => ?_⟩
  have after := agree_step h hs ht
  exact ⟨after, observe_of_agree after⟩

end Sys2Proof.Machine
end

section
/-! PROOFS. Schedules run command by command (41_commands.md R96, R99, R104; 30_encoding.md R63): LDKEY and sixteen STEPs, beside
GEN, first as commands and then as a host plays them. -/

namespace Sys2Proof.Machine

/-! ## LDKEY and n STEPs -/

/-- The state LDKEY and `n` STEPs leave; there are no more than sixteen rounds. -/
def afterSteps (s : State) : Nat → State
  | 0 => afterLdkey s
  | n + 1 => if hn : n < 16 then afterRound (afterSteps s n) ⟨n, hn⟩ else afterSteps s n

theorem afterSteps_succ (s : State) {n : Nat} (hn : n < 16) :
    afterSteps s (n + 1) = afterRound (afterSteps s n) ⟨n, hn⟩ := by
  rw [afterSteps, dif_pos hn]

theorem afterSteps_keyed (s : State) {n : Nat} (hn : n ≤ 16) : (afterSteps s n).keyed = true := by
  induction n with
  | zero => rfl
  | succ n ih => rw [afterSteps_succ s hn, afterRound_keyed, ih (Nat.le_of_succ_le hn)]

theorem afterSteps_round (s : State) {n : Nat} (hn : n ≤ 16) : (afterSteps s n).round = ⟨n, Nat.lt_succ_of_le hn⟩ := by
  cases n with
  | zero => rfl
  | succ n => rw [afterSteps_succ s hn, afterRound_round]; rfl

theorem exec_step_afterSteps (s : State) {n : Nat} (hn : n < 16) :
    exec .step (afterSteps s n) = .next (afterSteps s (n + 1)) := by
  have le := Nat.le_of_lt hn
  rw [exec_step_round (r := ⟨n, hn⟩) (afterSteps_keyed s le) (afterSteps_round s le), afterSteps_succ s hn]

/-- LDKEY and STEPs keep what R102 marks as kept by both. -/
theorem afterSteps_keeps (s : State) {n : Nat} (hn : n ≤ 16) :
    (afterSteps s n).fault = s.fault ∧ (afterSteps s n).ecode = s.ecode ∧ (afterSteps s n).inFlight = s.inFlight ∧
      (afterSteps s n).pins = s.pins ∧ (afterSteps s n).holding = s.holding ∧ (afterSteps s n).host = s.host := by
  induction n with
  | zero => exact ⟨rfl, rfl, rfl, rfl, rfl, rfl⟩
  | succ n ih =>
    rw [afterSteps_succ s hn]
    exact ih (Nat.le_of_succ_le hn)

theorem scheduleOf_afterSteps (s : State) {n : Nat} (hn : n ≤ 16) : ScheduleOf s.pins.keyIn (afterSteps s n) := by
  induction n with
  | zero => exact scheduleOf_afterLdkey s
  | succ n ih =>
    have le := Nat.le_of_succ_le hn
    rw [afterSteps_succ s hn]
    exact scheduleOf_afterRound (r := ⟨n, hn⟩) (afterSteps_round s le) (ih le)

theorem valid_afterSteps (s : State) {n : Nat} (hn : n ≤ 16) : (afterSteps s n).valid = BitVec.ofNat 16 (2 ^ n - 1) := by
  induction n with
  | zero => rfl
  | succ n ih =>
    have le := Nat.le_of_succ_le hn
    have round := afterSteps_round s le
    have valid := valid_afterRound (s := afterSteps s n) (r := ⟨n, hn⟩) round (by rw [ih le, round])
    rw [← afterSteps_succ s hn, afterSteps_round s hn] at valid
    exact valid

/-- SKO after `n + 1` STEPs is the subkey of round `n`. -/
theorem sko_afterSteps_succ (s : State) {n : Nat} (hn : n < 16) :
    (afterSteps s (n + 1)).sko = ks s.pins.keyIn ⟨n, hn⟩ := by
  have le := Nat.le_of_lt hn
  have round := roundF_of_scheduleOf (r := ⟨n, hn⟩) (afterSteps_round s le) (scheduleOf_afterSteps s le)
  rw [afterSteps_succ s hn, afterRound_sko, round]

theorem visibleSubkey_afterSteps_succ (s : State) {n : Nat} (hn : n < 16) :
    visibleSubkey (afterSteps s (n + 1)) = some (ks s.pins.keyIn ⟨n, hn⟩, BitVec.ofNat 4 n) := by
  rw [visibleSubkey, sko_afterSteps_succ s hn, afterSteps_succ s hn, afterRound_skoValid, if_pos rfl, afterRound_skoIdx]

theorem state_ext {s t : State} (c : s.c = t.c) (d : s.d = t.d) (keyed : s.keyed = t.keyed) (round : s.round = t.round)
    (sk : s.sk = t.sk) (valid : s.valid = t.valid) (fault : s.fault = t.fault) (ecode : s.ecode = t.ecode) (sko : s.sko = t.sko)
    (skoIdx : s.skoIdx = t.skoIdx) (skoValid : s.skoValid = t.skoValid) (inFlight : s.inFlight = t.inFlight)
    (pins : s.pins = t.pins) (holding : s.holding = t.holding) (host : s.host = t.host) : s = t := by
  cases s
  cases t
  exact State.mk.injEq .. ▸
    ⟨c, d, keyed, round, sk, valid, fault, ecode, sko, skoIdx, skoValid, inFlight, pins, holding, host⟩

/-- After sixteen rounds every element has the value GEN gives it. -/
theorem afterSteps_sixteen (s : State) : afterSteps s 16 = afterGen s := by
  have le := Nat.le_refl 16
  obtain ⟨fault, ecode, inFlight, pins, holding, host⟩ := afterSteps_keeps s le
  obtain ⟨c, d, entries⟩ := scheduleOf_afterSteps s le
  have round := afterSteps_round s le
  rw [round] at c d entries
  have last := afterSteps_succ s (n := 15) (by decide)
  have bank : (afterSteps s 16).sk = Vector.ofFn (ks s.pins.keyIn) :=
    Vector.ext fun i hi => (entries ⟨i, hi⟩ hi).trans (Vector.getElem_ofFn hi).symm
  have index : (afterSteps s 16).skoIdx = 15#4 := by rw [last]; rfl
  have shown : (afterSteps s 16).skoValid = true := by rw [last]; rfl
  rw [afterGen_eq]
  exact state_ext (c.trans (rotatedBy_sixteen _)) (d.trans (rotatedBy_sixteen _)) (afterSteps_keyed s le) round bank
    (valid_afterSteps s le) fault ecode (sko_afterSteps_succ s (by decide)) index shown inFlight pins holding host

/-! ## Commands in sequence (R96) -/

theorem execSeq_cons {i : Instr} {rest : List Instr} {s t : State} (h : exec i s = .next t) :
    execSeq (i :: rest) s = execSeq rest t := by
  rw [execSeq, h]

theorem execSeq_replicate_step (s : State) (m : Nat) {n : Nat} (hn : n + m ≤ 16) :
    execSeq (List.replicate m .step) (afterSteps s n) = .next (afterSteps s (n + m)) := by
  induction m generalizing n with
  | zero => rfl
  | succ m ih =>
    rw [List.replicate_succ, execSeq_cons (exec_step_afterSteps s (by omega)), ih (by omega), Nat.add_right_comm, Nat.add_assoc]

theorem execSeq_ldkey_steps (s : State) {n : Nat} (hn : n ≤ 16) :
    execSeq (.ldkey :: List.replicate n .step) s = .next (afterSteps s n) := by
  rw [execSeq_cons (exec_ldkey_afterLdkey s)]
  have steps := execSeq_replicate_step s n (n := 0) (by omega)
  rwa [Nat.zero_add] at steps

/-- Settles O28: sixteen rounds after LDKEY leave GEN's state, and each number of rounds leaves that ROUND. -/
theorem generateEqualsLoadKeyAndSixteenSteps : Obligations.GenerateEqualsLoadKeyAndSixteenSteps := by
  intro s hf
  refine ⟨?_, fun n hn => ⟨afterSteps s n, execSeq_ldkey_steps s hn, ?_, ?_⟩⟩
  · rw [execSeq_ldkey_steps s (Nat.le_refl 16), afterSteps_sixteen, exec_gen]
  · obtain ⟨fault, -⟩ := afterSteps_keeps s hn
    exact fault.trans hf
  · rw [afterSteps_round s hn]

/-! ## Offers in sequence -/

theorem runSteps_succ {s t : State} {n : Nat} (h : step s = .next t) : runSteps (n + 1) s = runSteps n t := by
  rw [runSteps, h]

/-- An offer, with no command in progress and none held, is one run of the frame on the offered ports. -/
theorem step_setPorts_offer {s : State} (hi : s.inFlight = none) (p : Pins) (w : CmdWord) (k : Key) (list : List Pins) :
    step (setPorts p false (offer w k :: list) s) = accept (setPorts (offer w k) false list s) :=
  step_offer (s := setPorts p false (offer w k :: list) s) hi rfl rfl rfl rfl

theorem step_setPorts_command {s t : State} {p : Pins} {w : CmdWord} {k : Key} {list : List Pins} {i : Instr}
    (hf : s.fault = false) (hi : s.inFlight = none) (hd : decode w = some i)
    (h : exec i (setPorts (offer w k) false list s) = .next t) : step (setPorts p false (offer w k :: list) s) = .next t := by
  rw [step_setPorts_offer hi]
  exact (accept_command (s := setPorts (offer w k) false list s) hf hd).trans h

theorem play_offer {s t : State} {w : CmdWord} {k : Key} {list : List Pins} {i : Instr} (hf : s.fault = false)
    (hi : s.inFlight = none) (hd : decode w = some i) (h : exec i (setPorts (offer w k) false list s) = .next t) :
    play (offer w k :: list) s = runSteps list.length t :=
  runSteps_succ (step_setPorts_command hf hi hd h)

/-- `s` with word `w` and key `k` on the ports, as the command finds it when the host has nothing more to drive. -/
def offered (w : CmdWord) (k : Key) (s : State) : State := setPorts (offer w k) false [] s

/-- What GEN leaves, the ports aside, depends on KEY_IN and not on the word beside it. -/
theorem afterGen_setPorts_offer (w : CmdWord) (k : Key) (list : List Pins) (s : State) :
    afterGen (setPorts (offer w k) false list s) = setPorts (offer w k) false list (afterGen (offered 0x10#8 k s)) := by
  have h := exec_setPorts (s := offered 0x10#8 k s) (p := offer w k) false list (.inl rfl) (exec_gen _)
  exact Host.Outcome.next.inj ((exec_gen _).symm.trans h)

/-- STEP does not read KEY_IN, so the host may drive anything there. -/
theorem step_offer_step {s : State} (hf : s.fault = false) (hi : s.inFlight = none) (p : Pins) (k : Key) (list : List Pins) {n : Nat}
    (hn : n < 16) :
    step (setPorts p false (offer 0x20#8 k :: list) (afterSteps s n)) =
      .next (setPorts (offer 0x20#8 k) false list (afterSteps s (n + 1))) := by
  obtain ⟨fault, -, inFlight, -⟩ := afterSteps_keeps s (Nat.le_of_lt hn)
  exact step_setPorts_command (fault.trans hf) (inFlight.trans hi) (decode_encode .step)
    (exec_setPorts false list (.inr ⟨nofun, nofun⟩) (exec_step_afterSteps s hn))

theorem runSteps_steps {s : State} (hf : s.fault = false) (hi : s.inFlight = none) (onSteps : List Key) (p : Pins) {n : Nat}
    (hn : n + onSteps.length ≤ 16) :
    ∃ q, runSteps onSteps.length (setPorts p false (onSteps.map (offer 0x20#8)) (afterSteps s n)) =
      .next (setPorts q false [] (afterSteps s (n + onSteps.length))) := by
  induction onSteps generalizing p n with
  | nil => exact ⟨p, rfl⟩
  | cons k rest ih =>
    rw [List.length_cons] at hn ⊢
    obtain ⟨q, run⟩ := ih (offer 0x20#8 k) (n := n + 1) (by omega)
    refine ⟨q, ?_⟩
    rw [List.map_cons, runSteps_succ (step_offer_step hf hi p k _ (by omega)), run, Nat.add_right_comm, Nat.add_assoc]

/-- LDKEY of `k` and a STEP for each key of `onSteps`. -/
theorem play_ldkey_steps {s : State} (hf : s.fault = false) (hi : s.inFlight = none) (k : Key) (onSteps : List Key)
    (hn : onSteps.length ≤ 16) :
    ∃ q, play (offer 0x10#8 k :: onSteps.map (offer 0x20#8)) s =
      .next (setPorts q false [] (afterSteps (offered 0x10#8 k s) onSteps.length)) := by
  obtain ⟨q, run⟩ := runSteps_steps (s := offered 0x10#8 k s) hf hi onSteps (offer 0x10#8 k) (n := 0) (by omega)
  rw [Nat.zero_add] at run
  refine ⟨q, ?_⟩
  rw [play_offer (w := 0x10#8) hf hi (decode_encode .ldkey) (exec_ldkey_afterLdkey _), List.length_map]
  exact run

theorem play_gen {s : State} (hf : s.fault = false) (hi : s.inFlight = none) (k : Key) (list : List Pins) :
    play (offer 0x30#8 k :: list) s = runSteps list.length (setPorts (offer 0x30#8 k) false list (afterGen (offered 0x10#8 k s))) := by
  rw [← afterGen_setPorts_offer, play_offer (w := 0x30#8) hf hi (decode_encode .gen) (exec_gen _)]

/-- Settles O29: the expansions are evaluated, and the STEPs end in GEN's state whatever is on KEY_IN. -/
theorem schedEndsInTheStateOfGenerate : Obligations.SchedEndsInTheStateOfGenerate := by
  have ends (k : Key) (onSteps : List Key) (s : State) (h16 : onSteps.length = 16) (hf : s.fault = false) (hi : s.inFlight = none) :
      ∃ t u, play (offer 0x10#8 k :: onSteps.map (offer 0x20#8)) s = .next t ∧ play [offer 0x30#8 k] s = .next u ∧
        SameEngine t u := by
    obtain ⟨q, run⟩ := play_ldkey_steps hf hi k onSteps (Nat.le_of_eq h16)
    rw [h16, afterSteps_sixteen] at run
    exact ⟨_, _, run, play_gen hf hi k [], rfl⟩
  exact ⟨fun _ _ => rfl, fun _ => rfl, fun _ _ => rfl,
    fun other key s hf hi => ends (BitVec.ofNat 64 key) (List.replicate 16 other) s rfl hf hi, ends⟩

/-! ## What a host sees (R99) -/

theorem observations_cons {p : Pins} {rest : List Pins} {s t : State} (h : step (setPorts s.pins false [p] s) = .next t) :
    observations (p :: rest) s = observe t :: observations rest t := by
  unfold setPorts at h
  rw [observations, h]

theorem drop_allRounds {n : Nat} (hn : n < 16) : allRounds.drop n = ⟨n, hn⟩ :: allRounds.drop (n + 1) := by
  have all : ∀ r : Fin 16, allRounds.drop r.val = r :: allRounds.drop (r.val + 1) := by decide
  exact all ⟨n, hn⟩

theorem subkeys_of_steps {s : State} (hf : s.fault = false) (hi : s.inFlight = none) (other : Key) (p : Pins) {m n : Nat}
    (hn : n + m = 16) :
    (observations (List.replicate m (offer 0x20#8 other)) (setPorts p false [] (afterSteps s n))).map Observation.subkey =
      (allRounds.drop n).map (fun r => some (ks s.pins.keyIn r, BitVec.ofNat 4 r.val)) := by
  induction m generalizing p n with
  | zero =>
    obtain rfl : n = 16 := hn
    rfl
  | succ m ih =>
    have hlt : n < 16 := by omega
    rw [List.replicate_succ, observations_cons (step_offer_step hf hi p other [] hlt), List.map_cons, ih _ (by omega),
      drop_allRounds hlt, List.map_cons]
    exact congrArg (· :: _) (visibleSubkey_afterSteps_succ s hlt)

theorem decode_rdsk_word (r : Fin 16) : decode (BitVec.ofNat 8 (0x40 + r.val)) = some (.rdsk (BitVec.ofNat 4 r.val)) := by
  revert r
  decide

theorem step_offer_rdsk {s : State} (hf : s.fault = false) (hi : s.inFlight = none) (other : Key) {r : Fin 16}
    (hv : entryValid s (BitVec.ofNat 4 r.val) = true) :
    step (setPorts s.pins false [offer (BitVec.ofNat 8 (0x40 + r.val)) other] s) =
      .next (setPorts (offer (BitVec.ofNat 8 (0x40 + r.val)) other) false []
        (driveSko (readEntry s (BitVec.ofNat 4 r.val)) (BitVec.ofNat 4 r.val) s)) :=
  step_setPorts_command hf hi (decode_rdsk_word r) (exec_setPorts false [] (.inr ⟨nofun, nofun⟩) (exec_rdsk_valid hv))

theorem readEntry_of_bank {k : Key} {s : State} (bank : s.sk = Vector.ofFn (ks k)) (r : Fin 16) :
    readEntry s (BitVec.ofNat 4 r.val) = ks k r := by
  simp [readEntry, bank]

/-- Reads in any order from a bank that holds the schedule of `k`: each shows the subkey it names, and moves nothing of the bank. -/
theorem subkeys_of_reads {k : Key} (other : Key) (order : List (Fin 16)) {s : State} (hf : s.fault = false) (hi : s.inFlight = none)
    (full : s.valid = 0xFFFF#16) (bank : s.sk = Vector.ofFn (ks k)) :
    (observations (order.map (fun r => offer (BitVec.ofNat 8 (0x40 + r.val)) other)) s).map Observation.subkey =
      order.map (fun r => some (ks k r, BitVec.ofNat 4 r.val)) := by
  induction order generalizing s with
  | nil => rfl
  | cons r rest ih =>
    have read := step_offer_rdsk hf hi other (entryValid_of_full full (BitVec.ofNat 4 r.val))
    rw [readEntry_of_bank bank r] at read
    rw [List.map_cons, observations_cons read, List.map_cons]
    exact congrArg (some (ks k r, BitVec.ofNat 4 r.val) :: ·) (ih (s := setPorts _ _ _ (driveSko _ _ s)) hf hi full bank)

theorem afterGen_sk (s : State) : (afterGen s).sk = Vector.ofFn (ks s.pins.keyIn) := by rw [afterGen_eq]

theorem visibleSubkey_afterGen (s : State) : visibleSubkey (afterGen s) = some (ks s.pins.keyIn 15, 15#4) := by
  rw [afterGen_eq]
  rfl

/-- Settles O30: SKO after each STEP is its round's subkey, and GEN fills the bank that the reads show. -/
theorem subkeysStreamInOrderAndReadInAnyOrder : Obligations.SubkeysStreamInOrderAndReadInAnyOrder := by
  refine ⟨fun k other s hf hi => ?_, fun k other s order hf hi => ?_⟩
  · have loaded : step (setPorts s.pins false [offer 0x10#8 k] s) = .next (afterSteps (offered 0x10#8 k s) 0) :=
      step_setPorts_command hf hi (decode_encode .ldkey) (exec_ldkey_afterLdkey _)
    rw [observations_cons loaded, List.map_cons]
    exact congrArg (none :: ·) (subkeys_of_steps (s := offered 0x10#8 k s) hf hi other (offer 0x10#8 k) (n := 0) (m := 16) rfl)
  · have filled : step (setPorts s.pins false [offer 0x30#8 k] s) = .next (afterGen (offered 0x30#8 k s)) :=
      step_setPorts_command hf hi (decode_encode .gen) (exec_gen _)
    rw [observations_cons filled, List.map_cons,
      subkeys_of_reads (s := afterGen (offered 0x30#8 k s)) other order hf hi rfl (afterGen_sk _)]
    exact congrArg (· :: _) (visibleSubkey_afterGen _)

/-! ## STATUS of a host's run (R104) -/

theorem status_afterSteps {s : State} (hf : s.fault = false) (he : s.ecode = .noFault) {n : Nat} (hn : n < 16) :
    status (afterSteps s (n + 1)) = keyedStatus ⟨n + 1, Nat.succ_lt_succ hn⟩ (BitVec.ofNat 16 (2 ^ (n + 1) - 1)) true := by
  obtain ⟨fault, ecode, -⟩ := afterSteps_keeps s (Nat.succ_le_of_lt hn)
  rw [status_of_noFault (fault.trans hf) (ecode.trans he) (afterSteps_keyed s hn), afterSteps_round s hn, valid_afterSteps s hn,
    afterSteps_succ s hn, afterRound_skoValid]

theorem statusAfter_ldkey_steps (k other : Key) {n : Nat} (hn : n < 16) {word : StatusWord}
    (shown : keyedStatus ⟨n + 1, Nat.succ_lt_succ hn⟩ (BitVec.ofNat 16 (2 ^ (n + 1) - 1)) true = word) :
    StatusAfter (offer 0x10#8 k :: List.replicate (n + 1) (offer 0x20#8 other)) word := by
  obtain ⟨q, run⟩ := play_ldkey_steps (s := State.reset) rfl rfl k (List.replicate (n + 1) other)
    (by rw [List.length_replicate]; exact hn)
  rw [List.map_replicate, List.length_replicate] at run
  exact ⟨_, run, (status_afterSteps (s := offered 0x10#8 k State.reset) rfl rfl hn).trans shown⟩

theorem statusAfter_one {w : CmdWord} {k : Key} {t : State} {word : StatusWord}
    (h : accept (offered w k State.reset) = .next t) (shown : status t = word) :
    StatusAfter [offer w k] word :=
  ⟨t, runSteps_succ ((step_setPorts_offer rfl _ w k []).trans h), shown⟩

/-- The first command of two runs with the second one left in the host's list. -/
theorem statusAfter_two {w w' : CmdWord} {k k' : Key} {t u : State} {word : StatusWord}
    (h : accept (offered w k State.reset) = .next t) (h' : accept (offered w' k' t) = .next u)
    (shown : status u = word) : StatusAfter [offer w k, offer w' k'] word := by
  obtain ⟨-, -, -, idle⟩ := accept_keeps_ports h
  have first : step (setPorts State.reset.pins false [offer w k, offer w' k'] State.reset) =
      .next (setPorts (offer w k) false [offer w' k'] t) :=
    (step_setPorts_offer rfl _ w k _).trans (accept_setPorts false [offer w' k'] h)
  have second : step (setPorts (offer w k) false [offer w' k'] t) = .next u := (step_setPorts_offer idle _ w' k' []).trans h'
  exact ⟨u, (runSteps_succ first).trans (runSteps_succ second), shown⟩

theorem accept_ldkey {s : State} (hf : s.fault = false) (hc : s.pins.cmd = 0x10#8) : accept s = .next (afterLdkey s) :=
  (accept_command hf (by rw [hc]; rfl)).trans (exec_ldkey_afterLdkey s)

theorem accept_gen {s : State} (hf : s.fault = false) (hc : s.pins.cmd = 0x30#8) : accept s = .next (afterGen s) :=
  (accept_command hf (by rw [hc]; rfl)).trans (exec_gen s)

/-- STATUS of the fault a STEP raises on a complete schedule that SKO shows. -/
theorem status_overrun_afterGen (s : State) (p : Pins) :
    status (raiseFault .roundOverrun (setPorts p false [] (afterGen s))) = 0xFFFF0BE1#32 :=
  calc status (raiseFault .roundOverrun (setPorts p false [] (afterGen s)))
    _ = status (raiseFault .roundOverrun { State.reset with keyed := true, round := 16, valid := 0xFFFF#16, skoValid := true }) :=
      status_congr rfl rfl rfl rfl rfl rfl
    _ = 0xFFFF0BE1#32 := by decide

/-- Settles O33: after LDKEY and STEPs the word is that of a keyed engine; the other sequences are run command by command. -/
theorem statusAfterCommonSequences : Obligations.StatusAfterCommonSequences := by
  intro k other
  have gen : accept (offered 0x30#8 k State.reset) = .next (afterGen (offered 0x30#8 k State.reset)) := accept_gen rfl rfl
  refine ⟨⟨State.reset, rfl, status_reset⟩, ?ldkey, statusAfter_ldkey_steps k other (n := 0) (by decide) (by decide),
    statusAfter_ldkey_steps k other (n := 1) (by decide) (by decide), statusAfter_ldkey_steps k other (n := 14) (by decide) (by decide),
    statusAfter_ldkey_steps k other (n := 15) (by decide) (by decide), ?gen, ?genLdkey, ?unkeyed, ?overrun, ?unwritten, ?reserved⟩
  case ldkey => exact statusAfter_one (accept_ldkey rfl rfl) (status_afterLdkey (s := offered 0x10#8 k State.reset) rfl rfl)
  case gen => exact statusAfter_one gen (status_afterGen (s := offered 0x30#8 k State.reset) rfl rfl)
  case genLdkey => exact statusAfter_two gen (accept_ldkey rfl rfl) (status_afterLdkey (s := offered 0x10#8 k (afterGen _)) rfl rfl)
  case unkeyed =>
    have faults := (accept_command (s := offered 0x20#8 other State.reset) rfl (decode_encode .step)).trans (exec_step_unkeyed rfl)
    exact statusAfter_one faults (by decide : status (raiseFault .noKey State.reset) = 0x00000280#32)
  case overrun =>
    have faults := (accept_command (s := offered 0x20#8 other (afterGen (offered 0x30#8 k State.reset))) rfl
      (decode_encode .step)).trans (exec_step_overrun rfl rfl)
    exact statusAfter_two gen faults (status_overrun_afterGen _ _)
  case unwritten =>
    have faults := (accept_command (s := offered 0x40#8 other State.reset) rfl (decode_encode (.rdsk 0))).trans
      (exec_rdsk_unwritten (entryValid_of_cleared rfl 0))
    exact statusAfter_one faults (by decide : status (raiseFault .skUnwritten State.reset) = 0x00000480#32)
  case reserved =>
    have faults := accept_reserved (s := offered 0x50#8 other State.reset) rfl (by decide : decode 0x50#8 = none)
    exact statusAfter_one faults (by decide : status (raiseFault .illegalCmd State.reset) = 0x00000180#32)

end Sys2Proof.Machine
end

section
/-! PROOFS. Steps (41_commands.md R90; 60_exceptions.md R113; 70_reset_and_hazards.md R120, R132): which command a step runs, what a
reset and an edge without an offer do, and that only a reset leaves the faulted state. -/

namespace Sys2Proof.Machine

/-- Settles O39: each of the three inversions has an effect for every state. -/
theorem nothingStopsTheMachine : Obligations.NothingStopsTheMachine := by
  refine ⟨fun i s => ?_, fun s => ?_, fun s => ?_⟩
  · obtain ⟨t, h, -⟩ := exec_effect i s
    exact ⟨t, h⟩
  · obtain ⟨t, h, -⟩ := step_effect s
    exact ⟨t, h⟩
  · obtain ⟨t, h, -⟩ := tick_effect s
    exact ⟨t, h⟩

/-! ## The host's side at an edge -/

theorem present_eq_setPorts (s : State) : present s = setPorts (present s).pins (present s).holding (present s).host s :=
  present_eq s

/-- An edge that takes the offer on the ports changes the host's side only. -/
theorem takeOffer_present_eq (s : State) : takeOffer (present s) = setPorts (present s).pins false (present s).host s := by
  rw [present_eq_setPorts s]
  rfl

/-- An edge that offers nothing, with nothing held, only changes the levels. -/
theorem present_noOffer {s : State} {p : Pins} {rest : List Pins} (ho : s.holding = false) (hh : s.host = p :: rest)
    (hv : p.cmdValid = false) : present s = drive p rest s := by
  rw [present_fresh ho hh, hv]
  simp [drive, ho]

/-- An offer held stays held until it is accepted. -/
theorem present_holding {s : State} (ho : s.holding = true) : (present s).holding = true := by
  have effect := present_effect s
  generalize present s = u at effect
  cases effect with
  | nothing | waiting | held => exact ho
  | fresh p rest fresh => exact absurd (fresh.symm.trans ho) Bool.false_ne_true

/-- Settles O41: such an edge presents its levels, and no command is accepted. -/
theorem onlyAcceptedCommandsChangeTheEngine : Obligations.OnlyAcceptedCommandsChangeTheEngine := by
  refine ⟨fun s p rest hi ho hh hr hv => ?_, fun s hi ho hh => ?_⟩
  · have levels := present_noOffer ho hh hv
    have idle : (present s).holding = false := by rw [levels]; exact ho
    have hn := noRstNow_cons hh hr
    rw [step_idle hi hn idle, tick_idle hi hn idle, levels]
    exact ⟨rfl, rfl⟩
  · have levels := present_nil hh
    have idle : (present s).holding = false := by rw [levels]; exact ho
    have hn := noRstNow_nil hh
    rw [step_idle hi hn idle, tick_idle hi hn idle, levels]
    exact ⟨rfl, rfl⟩

/-! ## Which command a step runs (R50, R90) -/

theorem decode_of_decodeTableWord {w : Nat} {i : Instr} (h : decodeTableWord 8 w = some i) : decode (BitVec.ofNat 8 w) = some i := by
  rw [decodeTableWord] at h
  split at h
  · exact h
  · cases h

/-- The word placed is the offer of the next step. -/
theorem step_withFetchWord (s : State) (w : Nat) :
    step (s.withFetchWord 8 w) =
      accept { s with
               inFlight := none
               pins := { rst := false, cmdValid := true, cmd := BitVec.ofNat 8 w, keyIn := s.pins.keyIn }
               holding := false } :=
  step_offer (s := s.withFetchWord 8 w) rfl rfl rfl rfl rfl

/-- Settles O40: each offer, new, held or placed, is one run of the frame. -/
theorem stepRunsTheDecodedCommand : Obligations.StepRunsTheDecodedCommand := by
  refine ⟨fun s p rest i hf hi ho hh hr hv hd => ?_, fun s p rest hf hi ho hh hr hv hd => ?_,
    fun s hf hi hn ho => ⟨fun i hd => ?_, fun hd => ?_⟩, fun s w i hf hd => ?_, fun s w hf hd => ?_⟩
  · rw [step_offer hi ho hh hr hv]
    exact accept_command (s := drive p rest s) hf hd
  · rw [step_offer hi ho hh hr hv]
    exact accept_reserved (s := drive p rest s) hf hd
  · rw [step_accepts hi hn ho]
    exact accept_command (s := takeOffer (present s)) ((present_fault s).trans hf) hd
  · rw [step_accepts hi hn ho]
    exact accept_reserved (s := takeOffer (present s)) ((present_fault s).trans hf) hd
  · rw [step_withFetchWord]
    exact accept_command hf (decode_of_decodeTableWord hd)
  · rw [step_withFetchWord]
    exact accept_reserved hf hd

/-! ## Reset (R39, R120) -/

/-- Settles O48: the reset event reads nothing of the engine. -/
theorem resetClearsEveryFlagFromEveryState : Obligations.ResetClearsEveryFlagFromEveryState :=
  fun _ p rest hh hr => ⟨resetEvent p rest, step_reset hh hr, tick_reset hh hr, rfl, rfl, rfl, rfl, rfl, rfl, rfl, rfl, rfl, rfl,
    fun _ hh' => step_reset hh' hr⟩

/-- Settles O49: the fields of the reset state, and the flags that are functions of them. -/
theorem resetGivesEveryFlagItsValue : Obligations.ResetGivesEveryFlagItsValue :=
  ⟨rfl, rfl, rfl, rfl, rfl, rfl, status_reset, rfl, rfl⟩

theorem observe_resetEvent (p : Pins) (rest : List Pins) : observe (resetEvent p rest) = observe State.reset := rfl

/-! ## The faulted state (R29, R113) -/

theorem eq_of_accept_faulted {s t : State} (hf : s.fault = true) (h : accept s = .next t) : t = s := by
  rw [accept_dropped hf] at h
  cases h
  rfl

/-- `t` is `s` but for the host's side and the command in progress: every register of 10_state.md is the same. -/
def SameRegisters (s t : State) : Prop :=
  ∃ busy p held list, t = { s with inFlight := busy, pins := p, holding := held, host := list }

/-- With FAULT = 1 a step without RST keeps every register, and ends a command in progress. -/
theorem sameRegisters_of_faulted_step {s t : State} (hf : s.fault = true) (hn : NoRstNow s) (h : step s = .next t) :
    SameRegisters s t := by
  cases step_cases h with
  | reset p rest hh hr => exact absurd ((hn p rest hh).symm.trans hr) Bool.false_ne_true
  | completed f u hi hn ha =>
    obtain rfl := eq_of_accept_faulted (s := atCompletion f s) hf ha
    exact ⟨none, s.pins, s.holding, s.host, rfl⟩
  | accepted _ hi hn ho ha =>
    obtain rfl := eq_of_accept_faulted (s := takeOffer (present s)) ((present_fault s).trans hf) ha
    exact ⟨_, _, _, _, takeOffer_present_eq s⟩
  | noOffer => exact ⟨_, _, _, _, present_eq s⟩

/-- The same of a clock edge. -/
theorem sameRegisters_of_faulted_tick {s t : State} (hf : s.fault = true) (hn : NoRstNow s) (h : tick s = .next t) :
    SameRegisters s t := by
  cases tick_cases h with
  | reset p rest hh hr => exact absurd ((hn p rest hh).symm.trans hr) Bool.false_ne_true
  | completed f u hi hn hc ha =>
    obtain rfl := eq_of_accept_faulted (s := atCompletion f (present s)) ((present_fault s).trans hf) ha
    rw [present_eq_setPorts]
    exact ⟨none, _, _, _, rfl⟩
  | counted f =>
    rw [present_eq_setPorts]
    exact ⟨some { f with cyclesLeft := f.cyclesLeft - 1 }, _, _, _, rfl⟩
  | begun =>
    rw [begin_dropped (s := takeOffer (present s)) ((present_fault s).trans hf)]
    exact ⟨_, _, _, _, takeOffer_present_eq s⟩
  | noOffer => exact ⟨_, _, _, _, present_eq s⟩

/-- Settles O38: without RST at the edge the registers, FAULT among them, are kept. -/
theorem onlyResetClearsTheFaultFlag : Obligations.OnlyResetClearsTheFaultFlag := by
  intro s t hf h cleared
  refine (rst_cases s).resolve_left fun hn => ?_
  have kept : SameRegisters s t := h.elim (sameRegisters_of_faulted_step hf hn) (sameRegisters_of_faulted_tick hf hn)
  obtain ⟨busy, p, held, list, rfl⟩ := kept
  exact Bool.false_ne_true (cleared.symm.trans hf)

/-- With FAULT = 1 an offer, new or held, is dropped at a step and at a clock edge. -/
theorem offer_dropped_of_faulted {s : State} (hf : s.fault = true) (hi : s.inFlight = none) (hn : NoRstNow s)
    (ho : (present s).holding = true) :
    step s = .next (takeOffer (present s)) ∧ tick s = .next (takeOffer (present s)) := by
  have faulted : (takeOffer (present s)).fault = true := (present_fault s).trans hf
  rw [step_accepts hi hn ho, tick_begins hi hn ho, begin_dropped faulted]
  exact ⟨accept_dropped faulted, rfl⟩

/-- An entry of the host's list, with FAULT = 1, changes the levels and nothing else, whether it offers a command or not. -/
theorem entry_dropped_of_faulted {s : State} {p : Pins} {rest : List Pins} (hf : s.fault = true) (hi : s.inFlight = none)
    (ho : s.holding = false) (hh : s.host = p :: rest) (hr : p.rst = false) :
    step s = .next (drive p rest s) ∧ tick s = .next (drive p rest s) := by
  cases hv : p.cmdValid with
  | true =>
    rw [← takeOffer_present_fresh ho hh]
    exact offer_dropped_of_faulted hf hi (noRstNow_cons hh hr) (by rw [present_fresh ho hh]; exact hv)
  | false =>
    obtain ⟨noOffer, -⟩ := onlyAcceptedCommandsChangeTheEngine
    exact noOffer s p rest hi ho hh hr hv

theorem cmdReady_of_idle {s : State} (hi : s.inFlight = none) : cmdReady s = true := by
  rw [cmdReady, hi]
  rfl

/-- Settles O37: offers are dropped, the registers are kept without RST, and RST puts the reset state in their place. -/
theorem faultedEngineDropsEveryCommandUntilReset : Obligations.FaultedEngineDropsEveryCommandUntilReset := by
  refine ⟨fun s p rest hf hi ho hh hr => ?_, fun s hf hi ho hn => ?_, fun s t hf hn h => ?_, fun s p rest hh hr => ?_⟩
  · obtain ⟨stepped, ticked⟩ := entry_dropped_of_faulted hf hi ho hh hr
    exact ⟨stepped, ticked, cmdReady_of_idle hi⟩
  · obtain ⟨stepped, ticked⟩ := offer_dropped_of_faulted hf hi hn (present_holding ho)
    refine ⟨takeOffer (present s), stepped, ticked, ?_, rfl, cmdReady_of_idle ((present_inFlight s).trans hi), ?_⟩
    · rw [takeOffer_present_eq]
      rfl
    · rw [takeOffer_present_eq]
      rfl
  · obtain ⟨busy, q, held, list, rfl⟩ := sameRegisters_of_faulted_step hf hn h
    exact ⟨hf, rfl, rfl⟩
  · exact ⟨resetEvent p rest, step_reset hh hr, rfl, rfl, observe_resetEvent p rest⟩

/-! ## Runs (R132) -/

/-- One entry of a script, with nothing in progress and no offer held: the engine it leaves depends on nothing that comes after. -/
theorem step_entry {s : State} (hi : s.inFlight = none) (p : Pins) :
    ∃ t, t.inFlight = none ∧ ∀ q rest, step (setPorts q false (p :: rest) s) = .next (setPorts p false rest t) := by
  cases hr : p.rst with
  | true => exact ⟨State.reset, rfl, fun q rest => step_reset rfl hr⟩
  | false =>
    cases hv : p.cmdValid with
    | true =>
      obtain ⟨t, ht⟩ := accept_next (setPorts p false [] s)
      obtain ⟨-, -, -, idle⟩ := accept_keeps_ports ht
      refine ⟨t, idle.trans hi, fun q rest => ?_⟩
      rw [step_offer (s := setPorts q false (p :: rest) s) hi rfl rfl hr hv]
      exact accept_setPorts false rest ht
    | false =>
      obtain ⟨noOffer, -⟩ := onlyAcceptedCommandsChangeTheEngine
      refine ⟨s, hi, fun q rest => ?_⟩
      obtain ⟨stepped, -⟩ := noOffer (setPorts q false (p :: rest) s) p rest hi rfl rfl hr hv
      exact stepped

/-- A script runs to its end, to an engine that depends on nothing that comes after it. -/
theorem runSteps_script (script : List Pins) {s : State} (hi : s.inFlight = none) (q : Pins) :
    ∃ t q', t.inFlight = none ∧
      ∀ later, runSteps script.length (setPorts q false (script ++ later) s) = .next (setPorts q' false later t) := by
  induction script generalizing s q with
  | nil => exact ⟨s, q, hi, fun _ => rfl⟩
  | cons p rest ih =>
    obtain ⟨t, idle, first⟩ := step_entry hi p
    obtain ⟨u, q', idle', run⟩ := ih idle p
    exact ⟨u, q', idle', fun later => (runSteps_succ (first q (rest ++ later))).trans (run later)⟩

theorem runSteps_add {s t : State} {m : Nat} (n : Nat) (h : runSteps m s = .next t) : runSteps (m + n) s = runSteps n t := by
  induction m generalizing s with
  | zero =>
    cases h
    rw [Nat.zero_add]
  | succ m ih =>
    obtain ⟨u, first, -⟩ := step_effect s
    rw [runSteps_succ first] at h
    rw [Nat.succ_add, runSteps_succ first, ih h]

theorem runSteps_faulted (later : List Pins) (noReset : NoReset later) {t : State} (hf : t.fault = true) (hi : t.inFlight = none)
    (q : Pins) : ∃ q', runSteps later.length (setPorts q false later t) = .next (setPorts q' false [] t) := by
  induction later generalizing q with
  | nil => exact ⟨q, rfl⟩
  | cons p rest ih =>
    obtain ⟨hr, noReset⟩ := List.forall_mem_cons.mp noReset
    obtain ⟨q', run⟩ := ih noReset p
    obtain ⟨first, -⟩ := entry_dropped_of_faulted (s := setPorts q false (p :: rest) t) hf hi rfl rfl hr
    exact ⟨q', (runSteps_succ first).trans run⟩

/-- Settles O51: the script's engine is the one the rest of the run starts from, and that rest is dropped. -/
theorem faultedRunDropsEveryLaterCommand : Obligations.FaultedRunDropsEveryLaterCommand := by
  have reaches (script : List Pins) := runSteps_script script (s := State.reset) rfl State.reset.pins
  refine ⟨fun script => ?_, fun script later t noReset h hf => ?_⟩
  · obtain ⟨t, q, -, run⟩ := reaches script
    have whole := run []
    rw [List.append_nil] at whole
    exact ⟨_, whole⟩
  · obtain ⟨t₀, q, idle, run⟩ := reaches script
    have whole := run []
    rw [List.append_nil] at whole
    obtain rfl : setPorts q false [] t₀ = t := Host.Outcome.next.inj (whole.symm.trans h)
    obtain ⟨q', rest⟩ := runSteps_faulted later noReset hf idle q
    have both : play (script ++ later) State.reset = .next (setPorts q' false [] t₀) := by
      rw [play, List.length_append]
      exact (runSteps_add _ (run later)).trans rest
    refine ⟨_, both, rfl, fun ⟨u, hu, well⟩ => ?_⟩
    obtain rfl : setPorts q' false [] t₀ = u := Host.Outcome.next.inj (both.symm.trans hu)
    exact Bool.false_ne_true (well.symm.trans hf)

end Sys2Proof.Machine
end

section
/-! PROOFS. Clock edges (70_reset_and_hazards.md R126, R128, R133; 20_memory.md R47): what an edge does with an offer and with a
command in progress, and that the edges from acceptance to completion are one step. -/

namespace Sys2Proof.Machine

/-! ## Latencies (R128) -/

/-- Settles O52: each latency is one more than a number of cycles. -/
theorem everyLatencyIsAtLeastOne : Obligations.EveryLatencyIsAtLeastOne := by
  have pos (extra : Nat) : 1 ≤ extra + 1 := Nat.le_add_left 1 extra
  refine ⟨pos _, pos _, pos _, pos _, pos _, fun w => ?_⟩
  cases decode w with
  | none => exact pos _
  | some i => cases i <;> exact pos _

/-! ## Offers at an edge -/

theorem noRstNow_of_noReset {s : State} (h : NoReset s.host) : NoRstNow s :=
  fun p _ hh => h p (hh ▸ List.mem_cons_self)

theorem offersToCome_congr {s t : State} (hp : s.pins = t.pins) (ho : s.holding = t.holding) (hh : s.host = t.host) :
    offersToCome s = offersToCome t := by
  rw [offersToCome, offersToCome, hp, ho, hh]

/-- R126: an edge puts a new offer on the ports, where it is held. -/
theorem present_new_offer {s : State} {p : Pins} {rest : List Pins} (hh : s.host = p :: rest) (hv : p.cmdValid = true)
    (ho : s.holding = false) : (present s).holding = true ∧ (present s).pins = p ∧ (present s).host = rest := by
  rw [present_fresh ho hh]
  exact ⟨hv, rfl, rfl⟩

/-- R126: an edge leaves the word of an offer held. -/
theorem present_held_word {s : State} (ho : s.holding = true) :
    (present s).holding = true ∧ (present s).pins.cmd = s.pins.cmd := by
  refine ⟨present_holding ho, ?_⟩
  have effect := present_effect s
  generalize present s = u at effect
  cases effect with
  | nothing | waiting | held => rfl
  | fresh p rest fresh => exact absurd (fresh.symm.trans ho) Bool.false_ne_true

/-! ## A command in progress -/

/-- An edge that is not the last one counts. -/
theorem tick_counts {s : State} {f : InFlight} (hi : s.inFlight = some f) (hn : NoRstNow s) (hc : 2 ≤ f.cyclesLeft) :
    tick s = .next { present s with inFlight := some { f with cyclesLeft := f.cyclesLeft - 1 } } := by
  rw [tick_busy hi hn, advance_count hc]

/-- What the ports show at the completing edge is nothing to the command. -/
theorem accept_atCompletion_present {s t : State} {f : InFlight} (ha : accept (atCompletion f s) = .next t) :
    accept (atCompletion f (present s)) = .next (setPorts f.sampled (present s).holding (present s).host t) := by
  have sampled : atCompletion f (present s) = setPorts f.sampled (present s).holding (present s).host (atCompletion f s) := by
    rw [present_eq_setPorts]
    rfl
  rw [sampled]
  exact accept_setPorts (present s).holding (present s).host ha

/-- The last edge is the frame on the sampled ports, with the host's side as the edge shows it. -/
theorem tick_completes {s t : State} {f : InFlight} (hi : s.inFlight = some f) (hn : NoRstNow s) (hc : f.cyclesLeft ≤ 1)
    (ha : accept (atCompletion f s) = .next t) :
    tick s = .next (setPorts (present s).pins (present s).holding (present s).host t) := by
  rw [tick_busy hi hn, advance_last hc (accept_atCompletion_present ha)]
  rfl

theorem inFlight_of_completed {s t : State} {f : InFlight} (ha : accept (atCompletion f s) = .next t) : t.inFlight = none := by
  obtain ⟨-, -, -, idle⟩ := accept_keeps_ports ha
  exact idle

theorem offersToCome_setPorts_present (s t : State) :
    offersToCome (setPorts (present s).pins (present s).holding (present s).host t) = offersToCome s :=
  (offersToCome_congr rfl rfl rfl).trans (offersToCome_present s)

/-- Settles O54: an edge of a command in progress is `present` on the host's side; the last one ends the command. -/
theorem commandInProgressShowsNothingAndHoldsTheNext : Obligations.CommandInProgressShowsNothingAndHoldsTheNext := by
  refine ⟨fun s f hi hc hn => ?_, fun s f hi hc hn => ?_⟩
  · refine ⟨_, tick_counts hi hn hc, ?_, rfl, rfl, ?_, ?_, fun p rest => present_new_offer, present_held_word⟩
    · rw [present_eq_setPorts]
      rfl
    · rw [present_eq_setPorts]
      rfl
    · exact (offersToCome_congr rfl rfl rfl).trans (offersToCome_present s)
  · obtain ⟨t, ha⟩ := accept_next (atCompletion f s)
    have idle := inFlight_of_completed ha
    exact ⟨_, tick_completes hi hn hc ha, idle, cmdReady_of_idle idle, offersToCome_setPorts_present s t,
      fun p rest => present_new_offer, present_held_word⟩

/-! ## Acceptance (R47, R125) -/

/-- The acceptance edge records the ports as it shows them. -/
theorem tick_records {s : State} (hf : s.fault = false) (hi : s.inFlight = none) (hn : NoRstNow s) (ho : (present s).holding = true) :
    tick s = .next (recorded (takeOffer (present s))) := by
  rw [tick_begins hi hn ho, begin_records (s := takeOffer (present s)) ((present_fault s).trans hf)]

/-- Settles O55: the recorded ports are those of the acceptance edge, and the completion runs the frame on them. -/
theorem keyIsSampledOnceAtAcceptance : Obligations.KeyIsSampledOnceAtAcceptance := by
  refine ⟨fun s p rest hf hi ho hh hr hv => ?_, fun s hf hi hn ho => ⟨_, tick_records hf hi hn ho, rfl⟩, fun s f hi hn => ?_,
    fun s t f p hi hn h => ?_⟩
  · obtain ⟨offered, -⟩ := present_new_offer hh hv ho
    have edge := tick_records hf hi (noRstNow_cons hh hr) offered
    rw [takeOffer_present_fresh ho hh] at edge
    exact ⟨_, edge, rfl⟩
  · obtain ⟨u, ha⟩ := accept_next (atCompletion f s)
    exact ⟨u, ha, (step_busy hi hn).trans (complete_of_accept ha), fun hc => ⟨_, tick_completes hi hn hc ha, rfl⟩⟩
  · obtain ⟨u, ha⟩ := accept_next (atCompletion f s)
    rw [step_busy hi hn, complete_of_accept ha] at h
    cases h
    exact (step_busy (s := { s with pins := p }) hi hn).trans (complete_of_accept (s := { s with pins := p }) (t := u) ha)

/-- Settles O56: `present` case by case, and what an edge does with the ports it shows. -/
theorem hostMayChangeKeyOrResetWhileItsOfferIsHeld : Obligations.HostMayChangeKeyOrResetWhileItsOfferIsHeld := by
  refine ⟨fun s => present_nil, fun s p rest => present_fresh, fun s p rest => present_held, fun s p rest => present_waiting,
    fun s f hi ho hn => ?busy, fun s hf hi ho hn => ?accepted, fun s p rest _ hh hr => ?reset⟩
  case busy =>
    have held := present_holding ho
    by_cases hc : f.cyclesLeft ≤ 1
    · obtain ⟨t, ha⟩ := accept_next (atCompletion f s)
      exact ⟨_, tick_completes hi hn hc ha, held, rfl, rfl⟩
    · exact ⟨_, tick_counts hi hn (by omega), held, rfl, rfl⟩
  case accepted =>
    obtain ⟨held, word⟩ := present_held_word ho
    exact ⟨_, tick_records hf hi hn held, rfl, by rw [← word]; rfl⟩
  case reset =>
    exact ⟨_, step_reset hh hr, tick_reset hh hr, rfl, rfl, rfl, observe_resetEvent p rest⟩

/-! ## Edges and the step (R50) -/

theorem ticks_succ {s t : State} {n : Nat} (h : tick s = .next t) : ticks (n + 1) s = ticks n t := by
  rw [ticks, h]

/-- The host's side is no part of what `SameEngine` compares. -/
theorem sameEngine_of_setPorts {s t : State} {p : Pins} {held : Bool} {list : List Pins}
    (h : SameEngine s (setPorts p held list t)) : SameEngine s t := by
  unfold SameEngine at h ⊢
  have hostOfT := congrArg (setPorts t.pins t.holding t.host) h
  exact hostOfT

/-- The edges that are left to a command in progress run the frame on its sampled ports, and lose no offer. -/
theorem ticks_to_completion (n : Nat) {s t : State} {f : InFlight} (hi : s.inFlight = some f) (hc : f.cyclesLeft = n + 1)
    (noReset : NoReset s.host) (ha : accept (atCompletion f s) = .next t) :
    ∃ u, ticks (n + 1) s = .next u ∧ SameEngine u t ∧ u.inFlight = none ∧ offersToCome u = offersToCome s := by
  have hn := noRstNow_of_noReset noReset
  induction n generalizing s t f with
  | zero =>
    exact ⟨_, ticks_succ (tick_completes hi hn (Nat.le_of_eq hc) ha), rfl, inFlight_of_completed (t := t) ha,
      offersToCome_setPorts_present s t⟩
  | succ n ih =>
    have left : NoReset (present s).host := fun q hq => noReset q (mem_present_host hq)
    obtain ⟨u, run, same, idle, offers⟩ := ih (f := { f with cyclesLeft := f.cyclesLeft - 1 })
      (s := { present s with inFlight := some { f with cyclesLeft := f.cyclesLeft - 1 } }) rfl (by rw [hc]; rfl) left
      (accept_atCompletion_present ha) (noRstNow_of_noReset left)
    refine ⟨u, (ticks_succ (tick_counts hi hn (by omega))).trans run, sameEngine_of_setPorts same, idle, ?_⟩
    exact offers.trans ((offersToCome_congr rfl rfl rfl).trans (offersToCome_present s))

/-- A recorded command is completed in the state that its acceptance found. -/
theorem atCompletion_recorded {s : State} (hi : s.inFlight = none) (cycles : Nat) :
    atCompletion { sampled := s.pins, cyclesLeft := cycles } (recorded s) = s := by
  rw [atCompletion, ← hi]
  rfl

/-- Settles O53: the acceptance edge records the command, and the edges of its latency complete it as the step does. -/
theorem clockEdgesImplementTheStep : Obligations.ClockEdgesImplementTheStep := by
  intro s hf hi noReset ho
  have hn := noRstNow_of_noReset noReset
  have left : NoReset (takeOffer (present s)).host := fun q hq => noReset q (mem_present_host hq)
  obtain ⟨t, ha⟩ := accept_next (takeOffer (present s))
  obtain ⟨pins, held, host, -⟩ := accept_keeps_ports ha
  have rest : offersToCome (takeOffer (present s)) = offersToCome t := offersToCome_congr pins.symm held.symm host.symm
  obtain ⟨-, -, -, -, -, pos⟩ := everyLatencyIsAtLeastOne
  obtain ⟨n, latency⟩ := Nat.exists_eq_add_of_le' (pos (present s).pins.cmd)
  obtain ⟨u, run, same, idle, offers⟩ := ticks_to_completion n (s := recorded (takeOffer (present s))) rfl latency left
    (by rw [atCompletion_recorded (s := takeOffer (present s)) ((present_inFlight s).trans hi)]; exact ha)
  refine ⟨t, u, (step_accepts hi hn ho).trans ha, ?_, same, cmdReady_of_idle idle, ?_, ?_⟩
  · rw [latency, Nat.add_comm, ticks_succ (tick_records hf hi hn ho)]
    exact run
  · rw [← offersToCome_present, ← rest, offersToCome, ho]
    rfl
  · exact (offers.trans (offersToCome_congr rfl rfl rfl)).trans rest

end Sys2Proof.Machine
end
